-- ==== Sys2Proof/Word.lean ====
section
/-! DEFINITION. The words of the block: register contents, halves, command words, bytes and register numbers. -/

namespace Sys2Proof

/-- A vector register's contents: `VLEN = 128` bits (00 R8, 10 R21). -/
abbrev V128 := BitVec 128

/-- A 64-bit lane, the operand of the carry-less multiplier (10 R26, 43 R120). -/
abbrev Half := BitVec 64

/-- A 32-bit word: a command word (30 R66), STATUS, ILLWORD (10 R28, R29) or a 32-bit lane. -/
abbrev Word := BitVec 32

/-- An 8-bit lane, an S-box entry or an immediate (20 R46, 30 R69). -/
abbrev Byte := BitVec 8

/-- A 4-bit register number; every value names a register `v0`..`v15` (30 R67). -/
abbrev RegIdx := BitVec 4

end Sys2Proof
end

