-- ==== Sys2Proof/Machine/Operands.lean ====
section
/-! DEFINITION. Typed views of a register (00 R11, 10 R23) and the parts of an immediate (30 R70). -/

namespace Sys2Proof.Machine

/-- `lane_w(v, i) = v[w*i + w - 1 : w*i]` (00 R11). -/
def lane (w : Nat) (v : V128) (i : Nat) : BitVec w := v.extractLsb' (w * i) w

/-- The value whose lanes below `n` are `l` and whose other bits are 0. -/
def packLanes (w : Nat) (l : Nat → BitVec w) : Nat → V128
  | 0 => 0#128
  | n + 1 => packLanes w l n ||| ((l n).setWidth 128 <<< (w * n))

/-- `pack_w(l_0, ..., l_{n-1})` with `n = 128/w` lanes (00 R11). -/
def pack (w : Nat) (l : Nat → BitVec w) : V128 := packLanes w l (128 / w)

/-- `pack_32(l0, l1, l2, l3)` (00 R11). -/
def pack32 (l0 l1 l2 l3 : Word) : V128 :=
  pack 32 (fun | 0 => l0 | 1 => l1 | 2 => l2 | _ => l3)

/-- `byte(v, i)` (00 R11, 20 R48). -/
def byte (v : V128) (i : Nat) : Byte := lane 8 v i

/-- `v` with lane `i` replaced by `x`: an indexed set. -/
def setLane (w : Nat) (v : V128) (i : Nat) (x : BitVec w) : V128 :=
  (v &&& ~~~((BitVec.allOnes w).setWidth 128 <<< (w * i))) ||| (x.setWidth 128 <<< (w * i))

/-- `sel_i = imm8[2i+1:2i]`, the source lane of destination lane `i` (30 R70). -/
def laneSel (imm8 : Byte) (i : Nat) : Nat := (imm8.extractLsb' (2 * i) 2).toNat

/-- The 64-bit half a selector bit picks: 0 is bits 63:0, 1 is bits 127:64 (30 R70, 43 R120). -/
def halfOf (sel : Bool) (v : V128) : Half := if sel then v.extractLsb' 64 64 else v.extractLsb' 0 64

/-- `RCON = zext_32(imm8)` (30 R70, 44 R138). -/
def rcon (imm8 : Byte) : Word := imm8.setWidth 32

/-- The `n`-bit value whose bit `i` is `f i`: the loop `for i in 0..n-1: m[i] <- f(i)` of 42 R110. -/
def gather (w : Nat) (f : Nat → Bool) : Nat → BitVec w
  | 0 => 0#w
  | n + 1 => gather w f n ||| ((BitVec.ofBool (f n)).setWidth w <<< n)

end Sys2Proof.Machine
end

