-- ==== Sys2Proof/Syntax.lean ====
section
/-! DEFINITION. The commands of the block, one constructor per row of spec/opcode_table.json (30 R72). -/

namespace Sys2Proof

/-- A decoded command. The operands are those of the assembler syntax (30 R77), which are the fields the command
uses (30 R72, R73): a field that a command ignores has no operand. Each operand's type holds exactly the values
its field can carry (30 R67, R69), so every term is well formed. -/
inductive Instr where
  /-- `SHUF vd, va, vb, imm8` (41 R100). -/
  | shuf (vd va vb : RegIdx) (imm8 : Byte)
  /-- `MOVMSKB vd, va` (42 R110). -/
  | movmskb (vd va : RegIdx)
  /-- `MOVMSKPS vd, va` (42 R111). -/
  | movmskps (vd va : RegIdx)
  /-- `CLMUL vd, va, vb, imm8` (43 R120). -/
  | clmul (vd va vb : RegIdx) (imm8 : Byte)
  /-- `AESENC vd, va, vb` (44 R136). -/
  | aesenc (vd va vb : RegIdx)
  /-- `AESENCLAST vd, va, vb` (44 R137). -/
  | aesenclast (vd va vb : RegIdx)
  /-- `AESKEYGEN vd, va, imm8` (44 R138). -/
  | aeskeygen (vd va : RegIdx) (imm8 : Byte)
  /-- `CVTPS2DQ vd, va` (45 R152). -/
  | cvtps2dq (vd va : RegIdx)
  /-- `CVTSS2SI vd, va` (45 R153). -/
  | cvtss2si (vd va : RegIdx)
  deriving DecidableEq, Repr

end Sys2Proof
end

