-- ==== Sys2Proof/WellFormed.lean ====
section
/-! DEFINITION. The checks a command passes before it exists. A decoded command (`Instr`) is well formed by its types, so
the checks stand where an ill-formed term can be written: on an assembler line (30 R77, R78), whose numbers are
unbounded. The check on a command word (30 R74) is `legal` in Decode.lean. -/

namespace Sys2Proof

/-- A line of assembly: a mnemonic of 30 R77 or a pseudo-instruction of 30 R78, its operands as written, not yet checked. -/
inductive AsmLine where
  | shuf (vd va vb imm8 : Nat)
  | movmskb (vd va : Nat)
  | movmskps (vd va : Nat)
  | clmul (vd va vb imm8 : Nat)
  | aesenc (vd va vb : Nat)
  | aesenclast (vd va vb : Nat)
  | aeskeygen (vd va imm8 : Nat)
  | cvtps2dq (vd va : Nat)
  | cvtss2si (vd va : Nat)
  /-- `PSHUFD vd, va, imm8` -/
  | pshufd (vd va imm8 : Nat)
  /-- `VMOV vd, va` -/
  | vmov (vd va : Nat)
  /-- `VBCAST vd, va, n` -/
  | vbcast (vd va n : Nat)
  | clmullqlq (vd va vb : Nat)
  | clmulhqlq (vd va vb : Nat)
  | clmullqhq (vd va vb : Nat)
  | clmulhqhq (vd va vb : Nat)
  deriving DecidableEq, Repr

/-- The registers a line names. -/
def AsmLine.regs : AsmLine → List Nat
  | .shuf vd va vb _ | .clmul vd va vb _ => [vd, va, vb]
  | .aesenc vd va vb | .aesenclast vd va vb => [vd, va, vb]
  | .clmullqlq vd va vb | .clmulhqlq vd va vb | .clmullqhq vd va vb | .clmulhqhq vd va vb => [vd, va, vb]
  | .movmskb vd va | .movmskps vd va | .cvtps2dq vd va | .cvtss2si vd va | .vmov vd va => [vd, va]
  | .aeskeygen vd va _ | .pshufd vd va _ | .vbcast vd va _ => [vd, va]

/-- The 8-bit immediate a line writes, if it writes one. -/
def AsmLine.imm? : AsmLine → Option Nat
  | .shuf _ _ _ imm8 | .clmul _ _ _ imm8 | .aeskeygen _ _ imm8 | .pshufd _ _ imm8 => some imm8
  | _ => none

/-- The lane number a line writes, if it writes one (`VBCAST`). -/
def AsmLine.laneNo? : AsmLine → Option Nat
  | .vbcast _ _ n => some n
  | _ => none

/-- Registers are spelled `v0`..`v15` (30 R77). -/
def AsmLine.regsInRange (l : AsmLine) : Bool := l.regs.all (fun r => decide (r < 16))

/-- "An immediate outside 0..255 is an assembly error" (30 R77, 41 R105, 93 U1). -/
def AsmLine.immInRange (l : AsmLine) : Bool := l.imm?.all (fun n => decide (n < 256))

/-- `VBCAST`'s lane is in 0..3 (30 R78). -/
def AsmLine.laneInRange (l : AsmLine) : Bool := l.laneNo?.all (fun n => decide (n < 4))

/-- A line the assembler accepts. -/
def AsmLine.wellFormed (l : AsmLine) : Bool := l.regsInRange && l.immInRange && l.laneInRange

end Sys2Proof
end

