-- ==== Sys2Proof/Decode.lean ====
section
/-! DEFINITION. The command encoding (30 R65-R76): fields, decoder, legality, encoder, and the bytes of a command word (20 R49). -/

namespace Sys2Proof

/-- `op = cmd[7:0]` (30 R66). -/
def opField (cmd : Word) : Byte := cmd.extractLsb' 0 8
/-- `vd = cmd[11:8]` (30 R66). -/
def vdField (cmd : Word) : RegIdx := cmd.extractLsb' 8 4
/-- `va = cmd[15:12]` (30 R66). -/
def vaField (cmd : Word) : RegIdx := cmd.extractLsb' 12 4
/-- `vb = cmd[19:16]` (30 R66). -/
def vbField (cmd : Word) : RegIdx := cmd.extractLsb' 16 4
/-- `rsv = cmd[23:20]` (30 R66, R68). -/
def rsvField (cmd : Word) : BitVec 4 := cmd.extractLsb' 20 4
/-- `imm8 = cmd[31:24]` (30 R66, R69). -/
def immField (cmd : Word) : Byte := cmd.extractLsb' 24 8

/-- Why a word is no command (30 R74). The last one is of a serialized command list only, and is the model's own (log 18). -/
inductive DecodeError where
  /-- `rsv = cmd[23:20]` is not zero (30 R68, R74 (b)). -/
  | reservedField
  /-- `op` is `0x00` or in `0x0A`..`0xFF` (30 R74 (a)). -/
  | unassignedOpcode
  /-- Fewer than the four bytes of a command word are left. DESIGN CHOICE, safe (log 18): no rule speaks of such a list. -/
  | truncated
  deriving DecidableEq, Repr

/-- What the decoder answers: a command, or the reason there is none. -/
inductive Decoded where
  | command (i : Instr)
  | illegal (e : DecodeError)
  deriving DecidableEq, Repr

/-- The decode steps of 30 R65, in their order: `rsv`, then the opcode map of 30 R72. -/
def decode (cmd : Word) : Decoded :=
  if rsvField cmd ≠ 0 then .illegal .reservedField
  else
    match (opField cmd).toNat with
    | 0x01 => .command (.shuf (vdField cmd) (vaField cmd) (vbField cmd) (immField cmd))
    | 0x02 => .command (.movmskb (vdField cmd) (vaField cmd))
    | 0x03 => .command (.movmskps (vdField cmd) (vaField cmd))
    | 0x04 => .command (.clmul (vdField cmd) (vaField cmd) (vbField cmd) (immField cmd))
    | 0x05 => .command (.aesenc (vdField cmd) (vaField cmd) (vbField cmd))
    | 0x06 => .command (.aesenclast (vdField cmd) (vaField cmd) (vbField cmd))
    | 0x07 => .command (.aeskeygen (vdField cmd) (vaField cmd) (immField cmd))
    | 0x08 => .command (.cvtps2dq (vdField cmd) (vaField cmd))
    | 0x09 => .command (.cvtss2si (vdField cmd) (vaField cmd))
    | _ => .illegal .unassignedOpcode

/-- The command of a decoder's answer, if there is one. -/
def Decoded.instr? : Decoded → Option Instr
  | .command i => some i
  | .illegal _ => none

/-- A word is legal when neither clause of 30 R74 holds. -/
def legal (cmd : Word) : Bool :=
  decide (rsvField cmd = 0) && decide (1 ≤ (opField cmd).toNat) && decide ((opField cmd).toNat ≤ 9)

/-- `cmd = (imm8 << 24) | (vb << 16) | (va << 12) | (vd << 8) | op`, with `rsv = 0` (30 R66). -/
def makeCmd (op : Byte) (vd va vb : RegIdx) (imm8 : Byte) : Word :=
  (imm8.setWidth 32 <<< 24) ||| (vb.setWidth 32 <<< 16) ||| (va.setWidth 32 <<< 12) |||
    (vd.setWidth 32 <<< 8) ||| op.setWidth 32

/-- The opcode of a command (30 R72). -/
def opcode : Instr → Byte
  | .shuf .. => 0x01#8
  | .movmskb .. => 0x02#8
  | .movmskps .. => 0x03#8
  | .clmul .. => 0x04#8
  | .aesenc .. => 0x05#8
  | .aesenclast .. => 0x06#8
  | .aeskeygen .. => 0x07#8
  | .cvtps2dq .. => 0x08#8
  | .cvtss2si .. => 0x09#8

/-- The word of a command. Zero stands in each unused field and in `rsv` (30 R77). -/
def encode (i : Instr) : Word :=
  match i with
  | .shuf vd va vb imm8 | .clmul vd va vb imm8 => makeCmd (opcode i) vd va vb imm8
  | .aesenc vd va vb | .aesenclast vd va vb => makeCmd (opcode i) vd va vb 0
  | .aeskeygen vd va imm8 => makeCmd (opcode i) vd va 0 imm8
  | .movmskb vd va | .movmskps vd va | .cvtps2dq vd va | .cvtss2si vd va => makeCmd (opcode i) vd va 0 0

/-- The bits a command with this opcode reads: `op`, `rsv`, `vd` and `va` always, `vb` and the bits of `imm8` as
30 R70 and R73 say. The others are the unused fields. -/
def usedMask (op : Byte) : Word :=
  match op.toNat with
  | 0x01 => 0xFFFFFFFF#32
  | 0x04 => 0x11FFFFFF#32
  | 0x05 | 0x06 => 0x00FFFFFF#32
  | 0x07 => 0xFFF0FFFF#32
  | _ => 0x00F0FFFF#32

/-- A command word as bytes: byte 0 is bits 7:0 (20 R49). -/
def bytesOfCmd (cmd : Word) : List Byte :=
  [cmd.extractLsb' 0 8, cmd.extractLsb' 8 8, cmd.extractLsb' 16 8, cmd.extractLsb' 24 8]

/-- The command word of four bytes, byte 0 first (20 R49). -/
def cmdOfBytes (b0 b1 b2 b3 : Byte) : Word := b3 ++ b2 ++ b1 ++ b0

/-- The first command of a serialized command list, with the bytes that are left: its word's four bytes are byte 0 first
(20 R49), and every command is four bytes long (30 R76). DESIGN CHOICE, safe (log 18): with fewer than four bytes left,
or none, the answer is `truncated` and the bytes are kept; R49 and R76 speak of whole words only. -/
def decodeBytes : List Byte → Decoded × List Byte
  | b0 :: b1 :: b2 :: b3 :: rest => (decode (cmdOfBytes b0 b1 b2 b3), rest)
  | short => (.illegal .truncated, short)

/-- The command word that the low `nbits` bits of `w` give, every bit above them zero. -/
def cmdOfTable (nbits w : Nat) : Word := BitVec.ofNat 32 (w % 2 ^ nbits)

/-- The command the decoder reads from a row's word. -/
def decodeTableWord (nbits w : Nat) : Option Instr := (decode (cmdOfTable nbits w)).instr?

end Sys2Proof
end

