-- ==== Sys2Proof/Config.lean ====
section
/-! DEFINITION. What the build of the block fixes (00 R8) and the one free value the spec leaves open (60 R172). -/

namespace Sys2Proof

/-- `SHUF_IMPL` (00 R8, 41 R102). -/
inductive ShufImpl where
  | native | catalogue | generic
  deriving DecidableEq, Repr

/-- `MOVMSK_IMPL` (00 R8, 42 R112). -/
inductive MovmskImpl where
  | tree | scalar
  deriving DecidableEq, Repr

/-- `CLMUL_IMPL` (00 R8, 43 R124). -/
inductive ClmulImpl where
  | native64 | synth8
  deriving DecidableEq, Repr

/-- `AES_IMPL` (00 R8, 44 R139). -/
inductive AesImpl where
  | hwAccel | scalar | tTable
  deriving DecidableEq, Repr

/-- `CVT_IMPL` (00 R8, 45 R158). -/
inductive CvtImpl where
  | native | floorCeil
  deriving DecidableEq, Repr

/-- The implementation parameters of 00 R8. They are fixed when the block is built: no transaction reads or
writes them (10 R31) and `Reset` keeps them (70 R192). The state carries them so that every claim quantifies
over them (93 U9, U10; log 9, 10). -/
structure Config where
  /-- `CVT_INVALID`, the result of an invalid conversion (45 R156). -/
  cvtInvalid : Word
  shufImpl   : ShufImpl
  movmskImpl : MovmskImpl
  clmulImpl  : ClmulImpl
  aesImpl    : AesImpl
  cvtImpl    : CvtImpl
  deriving DecidableEq, Repr

/-- The parameters of the block `State.reset` describes: the spec's default `CVT_INVALID` (00 R8, 45 R156).
DESIGN CHOICE, safe: the five strategies, which change no result (00 R9; log 10). -/
def Config.asBuilt : Config where
  cvtInvalid := 0x80000000#32
  shufImpl   := .native
  movmskImpl := .scalar
  clmulImpl  := .native64
  aesImpl    := .scalar
  cvtImpl    := .floorCeil

/-- FREE VALUE (log 2, 3). `unwrittenValue n r` is the unspecified 128-bit value that the `n`-th transaction to
read an unwritten register sees in register `r` (10 R22, 60 R172). It has no body: nothing can be proved of it.
DESIGN CHOICE, unsafe for claims that compare two states (log 19): the spec does not say what the value depends on.
Here it depends on the count and the register number alone, not on what the register stores, the build or the reader. -/
opaque Config.unwrittenValue : Nat → RegIdx → V128

end Sys2Proof
end

