-- ==== Sys2Proof/Machine/State.lean ====
section
/-! DEFINITION. The state of the block (10_state.md), the host's transactions and the block's responses (10 R27), and
the state after reset (10 R36). -/

namespace Sys2Proof.Machine

/-- A host transaction (10 R27). The host can write neither STATUS nor ILLWORD: no transaction does. -/
inductive Transaction where
  | reset
  | writeVec (i : RegIdx) (x : V128)
  | readVec (i : RegIdx)
  | issue (cmd : Word)
  | readStatus
  | readIllWord
  deriving DecidableEq, Repr

/-- The response of a transaction that has one (10 R27). -/
inductive Response where
  /-- The register `ReadVec` reads. -/
  | vec (x : V128)
  /-- The STATUS word `ReadStatus` reads. -/
  | status (w : Word)
  /-- The ILLWORD word `ReadIllWord` reads. -/
  | illWord (w : Word)
  deriving DecidableEq, Repr

/-- The block's state and, in the last four fields, what the model keeps beside it. -/
structure State where
  /-- The implementation parameters, fixed at build time (00 R8, 10 R31). -/
  config : Config
  /-- The contents of `v0`..`v15` (10 R21). -/
  v : Vector V128 16
  /-- The written attributes of `v0`..`v15` (10 R22). -/
  written : Vector Bool 16
  /-- STATUS: bit 0 is ILL, bits 31:1 are hardwired 0 (10 R28). -/
  status : Word
  /-- ILLWORD: the first illegal command word since reset (10 R29). -/
  illWord : Word
  /-- The MODEL's record of the model-level faults `UnwrittenRead(i)` (60 R172; log 2, 4). -/
  unwrittenReads : Vector Bool 16
  /-- The MODEL's count of the transactions that read an unwritten register (log 5). -/
  freeReads : Nat
  /-- The transactions the host has still to give, the next one first (10 R27, 20 R55; log 6). -/
  pending : List Transaction
  /-- The response of the last transaction, if it had one (00 R7, 10 R27; log 6). -/
  response : Option Response
  deriving DecidableEq, Repr

/-- The reasons to stop with a fault: none. The one hardware fault, IllegalCommand, is recorded in STATUS and
ILLWORD and the block goes on (60 R171, R175); the model-level fault UnwrittenRead is recorded in
`unwrittenReads` (60 R172). Safe: no run is cut short, and no claim can rest on a stop. -/
inductive Fault where
  deriving DecidableEq, Repr

/-- The reasons to refuse. -/
inductive Refusal where
  /-- An arm of `exec` without a meaning. Nobody raises it: every command has its meaning. Safe: it stops the run. -/
  | notModelled (mnemonic : String)
  deriving DecidableEq, Repr

/-- What a step answers. -/
abbrev Result := Host.Outcome State Fault Refusal

/-- The state right after `Reset` (10 R36, 70 R190). The spec leaves the registers' contents unspecified and marks
them unwritten. DESIGN CHOICE, unsafe in form (log 1): the contents are 0; no read answers them before a write
(log 2). DESIGN CHOICE (log 5, 6): nothing recorded, no transaction pending, no response. -/
def State.reset : State where
  config := Config.asBuilt
  v := Vector.replicate 16 0#128
  written := Vector.replicate 16 false
  status := 0#32
  illWord := 0#32
  unwrittenReads := Vector.replicate 16 false
  freeReads := 0
  pending := []
  response := none

end Sys2Proof.Machine
end

