-- ==== Sys2Proof/Machine/Flags.lean ====
section
/-! DEFINITION. STATUS and ILLWORD (10 R28, R29) and the fault causes (60 R170). The block has no condition codes, no
predicates and no floating-point flags (10 R30, 45 R157): no command computes a flag. -/

namespace Sys2Proof.Machine

/-- STATUS.ILL, bit 0 of STATUS (10 R28). -/
def State.ill (s : State) : Bool := s.status.getLsbD 0

/-- The STATUS word as `ReadStatus` answers it: bits 31:1 are hardwired 0 (10 R28, 93 U8). -/
def State.statusWord (s : State) : Word := s.status &&& 0x00000001#32

/-- STATUS with ILL set (60 R171). -/
def statusWithIll (status : Word) : Word := status ||| 0x00000001#32

/-- What the block reports of a command (60 R170). -/
inductive Cause where
  | noFault
  | illegalCommand
  deriving DecidableEq, Repr

/-- Cause code 1 is IllegalCommand and 0 is "no fault" (60 R170). -/
def Cause.code : Cause → Nat
  | .noFault => 0
  | .illegalCommand => 1

/-- The cause a command word raises when issued: both clauses of 30 R74 give the same one (60 R174), and no unit
raises any (60 R170). -/
def causeOf (cmd : Word) : Cause :=
  match decode cmd with
  | .command _ => .noFault
  | .illegal _ => .illegalCommand

end Sys2Proof.Machine
end

