-- ==== Sys2Proof/Machine/Ops.lean ====
section
/-! DEFINITION. The operations every command and transaction is built from: reading and writing a vector register,
recording a read of an unwritten one, completing a command, IllegalCommand, and Reset. -/

namespace Sys2Proof.Machine

/-- What register `r` stores, written or not. -/
def State.cell (s : State) (r : RegIdx) : V128 := s.v[r.toNat]'r.isLt

/-- The written attribute of register `r` (10 R22). -/
def State.isWritten (s : State) (r : RegIdx) : Bool := s.written[r.toNat]'r.isLt

/-- Whether `UnwrittenRead(r)` has been recorded (60 R172). -/
def State.unwrittenRead (s : State) (r : RegIdx) : Bool := s.unwrittenReads[r.toNat]'r.isLt

/-- `x[r]` as a source (00 R14). An unwritten register answers "an unspecified 128-bit value" (10 R22, 60 R172): a
free value. DEDUCED (log 3): within one transaction all reads of one register answer the same value. DESIGN CHOICE
(log 19): it depends on nothing but the count and `r`, so not on what `r` stores. -/
def State.readReg (s : State) (r : RegIdx) : V128 :=
  if s.isWritten r then s.cell r else Config.unwrittenValue s.freeReads r

/-- `x[r] <- x`: all 128 bits at once (20 R52), and written(r) is set (10 R22). -/
def State.writeReg (s : State) (r : RegIdx) (x : V128) : State :=
  { s with v := s.v.set r.toNat x r.isLt, written := s.written.set r.toNat true r.isLt }

/-- The registers of `rs` that are unwritten. -/
def State.unwrittenOf (s : State) (rs : List RegIdx) : List RegIdx := rs.filter (fun r => !s.isWritten r)

/-- Add `UnwrittenRead(r)` to the record for each `r` of `rs`. -/
def markReads (record : Vector Bool 16) : List RegIdx → Vector Bool 16
  | [] => record
  | r :: rs => markReads (record.set r.toNat true r.isLt) rs

/-- Record the model-level faults of one transaction that reads the registers `rs` (60 R172, R174): one for each
that is unwritten (DESIGN CHOICE, safe, log 4). The next such transaction sees fresh free values (log 5). -/
def State.recordReads (s : State) (rs : List RegIdx) : State :=
  match s.unwrittenOf rs with
  | [] => s
  | r :: more =>
    { s with unwrittenReads := markReads s.unwrittenReads (r :: more), freeReads := s.freeReads + 1 }

/-- Complete a command that has read the registers `srcs`: its result, computed from the sources as they were, is
written to `vd` (70 R195, R196). It writes nothing else and raises no hardware fault (60 R170). -/
def State.complete (s : State) (srcs : List RegIdx) (vd : RegIdx) (result : V128) : Result :=
  .next ((s.recordReads srcs).writeReg vd result)

/-- IllegalCommand (60 R171), the block's one exception: `if STATUS.ILL == 0: ILLWORD <- cmd`, then
`STATUS.ILL <- 1`. The block saves no state, changes no mode and transfers no control (60 R175), so nothing else
happens and there is nothing to return from (60 R176). -/
def State.raiseIllegal (s : State) (cmd : Word) : State :=
  { s with illWord := if s.ill then s.illWord else cmd, status := statusWithIll s.status }

/-- The `Reset` transaction (10 R36, 70 R190). The build-time parameters stay (70 R192). What the model keeps
beside the block stays too: the host's further transactions (log 6), and the record of UnwrittenRead, which is
"never cleared within a run" (60 R172, log 4). -/
def State.applyReset (s : State) : State :=
  { s with
    v := State.reset.v, written := State.reset.written,
    status := State.reset.status, illWord := State.reset.illWord }

end Sys2Proof.Machine
end

