-- ==== Sys2Proof/Machine/Aes.lean ====
section
/-! DEFINITION. The Block-Cipher Round Emulator (44_aes.md): AESENC, AESENCLAST and AESKEYGEN. Its constants are the
spec's, which marks them as general knowledge (44 R130-R135, R138; 93 K8-K13; log 12). -/

namespace Sys2Proof.Machine

/-- Doubling in GF(2^8) (44 R131). -/
def xtime (b : Byte) : Byte := (b <<< 1) ^^^ (if b.getLsbD 7 then 0x1B#8 else 0x00#8)

/-- Tripling in GF(2^8) (44 R131). -/
def mul3 (b : Byte) : Byte := xtime b ^^^ b

/-- The table SR of 44 R133. -/
def srTable : List Nat := [0, 5, 10, 15, 4, 9, 14, 3, 8, 13, 2, 7, 12, 1, 6, 11]

/-- `ShiftRows` (44 R133): byte i takes byte `SR[i]`. -/
def shiftRows (s : V128) : V128 := pack 8 (fun i => byte s (srTable.getD i 0))

/-- `SubBytes` (44 R133). -/
def subBytes (s : V128) : V128 := pack 8 (fun i => sbox (byte s i))

/-- Row `r` of a mixed column (44 R133). -/
def mixRow (s0 s1 s2 s3 : Byte) : Nat → Byte
  | 0 => xtime s0 ^^^ mul3 s1 ^^^ s2 ^^^ s3
  | 1 => s0 ^^^ xtime s1 ^^^ mul3 s2 ^^^ s3
  | 2 => s0 ^^^ s1 ^^^ xtime s2 ^^^ mul3 s3
  | _ => mul3 s0 ^^^ s1 ^^^ s2 ^^^ xtime s3

/-- `MixColumns` (44 R133): byte `4c + r` is row r of column c (44 R132). -/
def mixColumns (s : V128) : V128 :=
  pack 8 (fun i =>
    let c := i / 4
    mixRow (byte s (4 * c)) (byte s (4 * c + 1)) (byte s (4 * c + 2)) (byte s (4 * c + 3)) (i % 4))

/-- `AddRoundKey` (44 R133). -/
def addRoundKey (s k : V128) : V128 := s ^^^ k

/-- One full forward round, the key injected last (44 R134, R136). -/
def aesRound (s k : V128) : V128 := addRoundKey (mixColumns (subBytes (shiftRows s))) k

/-- The last round, without mixing (44 R134, R137). -/
def aesLastRound (s k : V128) : V128 := addRoundKey (subBytes (shiftRows s)) k

/-- The hardware "substitution-and-diffusion step with a zero key" of `AES_IMPL = HWACCEL` (44 R139; DEDUCED, log 11). -/
def hwStep (s : V128) : V128 := subBytes (shiftRows (addRoundKey s 0#128))

/-- The T-tables of 44 R133 (`AES_IMPL = TTABLE`, 10 R33, 20 R47), high byte first. -/
def tTable0 (x : Byte) : Word := let y := sbox x; mul3 y ++ y ++ y ++ xtime y
def tTable1 (x : Byte) : Word := let y := sbox x; y ++ y ++ xtime y ++ mul3 y
def tTable2 (x : Byte) : Word := let y := sbox x; y ++ xtime y ++ mul3 y ++ y
def tTable3 (x : Byte) : Word := let y := sbox x; xtime y ++ mul3 y ++ y ++ y

/-- Output column `c` through the T-tables (44 R133). -/
def tColumn (s : V128) (c : Nat) : Word :=
  tTable0 (byte s (4 * c)) ^^^ tTable1 (byte s (4 * ((c + 1) % 4) + 1)) ^^^
    tTable2 (byte s (4 * ((c + 2) % 4) + 2)) ^^^ tTable3 (byte s (4 * ((c + 3) % 4) + 3))

/-- AESENC's unit as built (44 R139). -/
def aesRoundBy (impl : AesImpl) (s k : V128) : V128 :=
  match impl with
  | .hwAccel => addRoundKey (mixColumns (hwStep s)) k
  | .scalar => aesRound s k
  | .tTable => addRoundKey (pack 32 (tColumn s)) k

/-- AESENCLAST's unit as built (44 R139). The T-tables fold the mixing in, so the last round under `TTABLE` reads the
S-box. -/
def aesLastRoundBy (impl : AesImpl) (s k : V128) : V128 :=
  match impl with
  | .hwAccel => addRoundKey (hwStep s) k
  | .scalar => aesLastRound s k
  | .tTable => aesLastRound s k

/-- `SubWord` (44 R135). -/
def subWord (w : Word) : Word :=
  sbox (w.extractLsb' 24 8) ++ sbox (w.extractLsb' 16 8) ++ sbox (w.extractLsb' 8 8) ++ sbox (w.extractLsb' 0 8)

/-- `RotWord(w) = ror32(w, 8)` (44 R135). -/
def rotWord (w : Word) : Word := w.rotateRight 8

/-- The key-expansion assist (44 R138). -/
def aesKeyAssist (key : V128) (imm8 : Byte) : V128 :=
  let x1 := lane 32 key 1
  let x3 := lane 32 key 3
  pack32 (subWord x1) (rotWord (subWord x1) ^^^ rcon imm8) (subWord x3) (rotWord (subWord x3) ^^^ rcon imm8)

/-- AESENC (44 R136): `va` is the state and `vb` the round key. -/
def execAesenc (vd va vb : RegIdx) (s : State) : Result :=
  s.complete [va, vb] vd (aesRoundBy s.config.aesImpl (s.readReg va) (s.readReg vb))

/-- AESENCLAST (44 R137). -/
def execAesenclast (vd va vb : RegIdx) (s : State) : Result :=
  s.complete [va, vb] vd (aesLastRoundBy s.config.aesImpl (s.readReg va) (s.readReg vb))

/-- AESKEYGEN (44 R138). -/
def execAeskeygen (vd va : RegIdx) (imm8 : Byte) (s : State) : Result :=
  s.complete [va] vd (aesKeyAssist (s.readReg va) imm8)

end Sys2Proof.Machine
end

