-- ==== Sys2Proof/Machine/Clmul.lean ====
section
/-! DEFINITION. The Carry-less Multiplier (43_clmul.md): CLMUL. -/

namespace Sys2Proof.Machine

/-- The xor of `zext_128(p) << j` over the `j < n` with `q[j] = 1` (43 R121). -/
def clmulRows (p q : Half) : Nat → V128
  | 0 => 0#128
  | n + 1 => clmulRows p q n ^^^ (if q.getLsbD n then p.setWidth 128 <<< n else 0#128)

/-- The 64x64 to 128 carry-less product (43 R121). Every combining step is xor, never addition (43 R123). -/
def clmul64 (p q : Half) : V128 := clmulRows p q 64

/-- The unit as built. The 8x8 synthesis is not normative and not given in full (90 C5, 93 U12): both strategies
compute 43 R121 (43 R124; log 10). -/
def clmulBy (impl : ClmulImpl) (p q : Half) : V128 :=
  match impl with
  | .native64 => clmul64 p q
  | .synth8 => clmul64 p q

/-- CLMUL (43 R120): `imm8[0]` selects the half of `va` and `imm8[4]` that of `vb`; the other six bits are ignored (R125). -/
def execClmul (vd va vb : RegIdx) (imm8 : Byte) (s : State) : Result :=
  s.complete [va, vb] vd
    (clmulBy s.config.clmulImpl (halfOf (imm8.getLsbD 0) (s.readReg va)) (halfOf (imm8.getLsbD 4) (s.readReg vb)))

end Sys2Proof.Machine
end

