-- ==== Sys2Proof/Machine/Convert.lean ====
section
/-! DEFINITION. The Rounding/Conversion Helper (45_convert.md): CVTPS2DQ and CVTSS2SI, and the round-control immediate's
encoding (30 R80), which no command takes. -/

namespace Sys2Proof.Machine

/-- A binary32 lane as 45 R151 reads it. `finite num den` is the exact value `num / den`. -/
inductive Binary32 where
  | nan
  | inf (negative : Bool)
  | finite (num : Int) (den : Nat)
  deriving DecidableEq, Repr

/-- Sign, `f[31]` (45 R151). -/
def f32Sign (f : Word) : Bool := f.getLsbD 31
/-- Biased exponent, `f[30:23]` (45 R151). -/
def f32Exp (f : Word) : Nat := (f.extractLsb' 23 8).toNat
/-- Fraction, `f[22:0]` (45 R151). -/
def f32Frac (f : Word) : Nat := (f.extractLsb' 0 23).toNat

/-- Classify a lane (45 R151). A finite value is `±m * 2^(x - 150)`, with `m = 2^23 + t` and `x = e` for a normal
number, `m = t` and `x = 1` for ±0 and subnormals, which are not flushed. One of the two powers below is `2^0`. -/
def readF32 (f : Word) : Binary32 :=
  if f32Exp f = 255 then
    if f32Frac f ≠ 0 then .nan else .inf (f32Sign f)
  else
    let m : Nat := if f32Exp f = 0 then f32Frac f else 2 ^ 23 + f32Frac f
    let x : Nat := if f32Exp f = 0 then 1 else f32Exp f
    .finite ((if f32Sign f then -1 else 1) * (m * 2 ^ (x - 150) : Nat)) (2 ^ (150 - x))

/-- The integer 45 R154 chooses for the exact value `num / den`: with `fl` the floor, `cl` the ceiling and `d = r / den`
the difference to the floor, `cl` above one half, `fl` below it, and the even one of them at a tie. -/
def roundNearestEven (num : Int) (den : Nat) : Int :=
  let fl := num / (den : Int)
  let r := num % (den : Int)
  let cl := if r = 0 then fl else fl + 1
  if 2 * r > den then cl
  else if 2 * r < den then fl
  else if fl % 2 = 0 then fl else cl

/-- `cvt_rne` (45 R154), with `CVT_INVALID` for a NaN, an infinity or a result outside the signed 32-bit range (45 R156). -/
def cvtRne (cvtInvalid : Word) (f : Word) : Word :=
  match readF32 f with
  | .nan => cvtInvalid
  | .inf _ => cvtInvalid
  | .finite num den =>
    let n := roundNearestEven num den
    if n < -2 ^ 31 ∨ n > 2 ^ 31 - 1 then cvtInvalid else BitVec.ofInt 32 n

/-- The unit as built. The spec gives both strategies the one function `cvt_rne` (45 R158, 90 C3, 93 U13; log 10). -/
def cvtBy (impl : CvtImpl) (cvtInvalid : Word) (f : Word) : Word :=
  match impl with
  | .native => cvtRne cvtInvalid f
  | .floorCeil => cvtRne cvtInvalid f

/-- CVTPS2DQ (45 R152): each lane on its own. -/
def execCvtps2dq (vd va : RegIdx) (s : State) : Result :=
  s.complete [va] vd (pack 32 (fun i => cvtBy s.config.cvtImpl s.config.cvtInvalid (lane 32 (s.readReg va) i)))

/-- CVTSS2SI (45 R153): lane 0, zero-extended (10 R25). -/
def execCvtss2si (vd va : RegIdx) (s : State) : Result :=
  s.complete [va] vd ((cvtBy s.config.cvtImpl s.config.cvtInvalid (lane 32 (s.readReg va) 0)).setWidth 128)

/-- The modes of the Immediate Round-Control (30 R80). -/
inductive RoundMode where
  | toNearest | towardNegInf | towardPosInf | towardZero
  deriving DecidableEq, Repr

/-- The Immediate Round-Control (30 R80). No command consumes it (10 R30, 45 R150, 93 U14). -/
structure RoundControl where
  mode : RoundMode
  /-- Use the mode register instead of `mode`; the block has none (10 R30). -/
  currentMode : Bool
  noExceptions : Bool
  deriving DecidableEq, Repr

/-- The numeric encoding 30 R80 records: bits 1:0 the mode, bit 2 current-mode, bit 3 "no exceptions". -/
def RoundControl.ofBits (b : BitVec 4) : RoundControl where
  mode :=
    match (b.extractLsb' 0 2).toNat with
    | 0 => .toNearest
    | 1 => .towardNegInf
    | 2 => .towardPosInf
    | _ => .towardZero
  currentMode := b.getLsbD 2
  noExceptions := b.getLsbD 3

end Sys2Proof.Machine
end

