-- ==== Sys2Proof/Machine/MoveMask.lean ====
section
/-! DEFINITION. The Mask Extractor (42_movemask.md): MOVMSKB and MOVMSKPS. -/

namespace Sys2Proof.Machine

/-- The per-lane loop of 42 R110, the normative definition (R112): mask bit i is bit 7 of byte i. -/
def movmskb (a : V128) : BitVec 16 := gather 16 (fun i => (lane 8 a i).getLsbD 7) 16

/-- The per-lane loop of 42 R111: mask bit i is bit 31 of the 32-bit lane i. -/
def movmskps (a : V128) : BitVec 4 := gather 4 (fun i => (lane 32 a i).getLsbD 31) 4

/-- One narrowing step of the tree: each lane is added to itself shifted right by `k`, modulo `2^w` (42 R113). -/
def mergeStep (w k : Nat) (t : V128) : V128 := pack w (fun i => lane w t i + (lane w t i >>> k))

/-- The reduction tree of 42 R113 (`MOVMSK_IMPL = TREE`), with its shifts 7, 7, 14 and 28 (90 C7). -/
def movmskbTree (a : V128) : BitVec 16 :=
  let t1 := pack 8 (fun i => lane 8 a i >>> 7)
  let t4 := mergeStep 64 28 (mergeStep 32 14 (mergeStep 16 7 t1))
  byte t4 8 ++ byte t4 0

/-- The float view's tree of 42 R114, with its shifts 31 and 31. -/
def movmskpsTree (a : V128) : BitVec 4 :=
  let t2 := mergeStep 64 31 (pack 32 (fun i => lane 32 a i >>> 31))
  (lane 64 t2 1).extractLsb' 0 2 ++ (lane 64 t2 0).extractLsb' 0 2

/-- MOVMSKB's unit as built (42 R112). -/
def movmskbBy (impl : MovmskImpl) (a : V128) : BitVec 16 :=
  match impl with
  | .tree => movmskbTree a
  | .scalar => movmskb a

/-- MOVMSKPS's unit as built (42 R112). -/
def movmskpsBy (impl : MovmskImpl) (a : V128) : BitVec 4 :=
  match impl with
  | .tree => movmskpsTree a
  | .scalar => movmskps a

/-- MOVMSKB (42 R110): the mask, zero-extended (10 R25). -/
def execMovmskb (vd va : RegIdx) (s : State) : Result :=
  s.complete [va] vd ((movmskbBy s.config.movmskImpl (s.readReg va)).setWidth 128)

/-- MOVMSKPS (42 R111): the mask, zero-extended (10 R25). -/
def execMovmskps (vd va : RegIdx) (s : State) : Result :=
  s.complete [va] vd ((movmskpsBy s.config.movmskImpl (s.readReg va)).setWidth 128)

end Sys2Proof.Machine
end

