-- ==== Sys2Proof/Machine/Permute.lean ====
section
/-! DEFINITION. The Permutation Dispatcher (41_permute.md): SHUF. -/

namespace Sys2Proof.Machine

/-- The contract of 41 R100: lanes 0 and 1 of the result from `a`, lanes 2 and 3 from `b`. -/
def shuf (a b : V128) (imm8 : Byte) : V128 :=
  pack32 (lane 32 a (laneSel imm8 0)) (lane 32 a (laneSel imm8 1))
    (lane 32 b (laneSel imm8 2)) (lane 32 b (laneSel imm8 3))

/-- `SHUF_IMPL = GENERIC`: "extracts each of the 4 destination lanes independently via indexed-get/indexed-set" (41 R102). -/
def shufGeneric (a b : V128) (imm8 : Byte) : V128 :=
  setLane 32 (setLane 32 (setLane 32 (setLane 32 0#128
    0 (lane 32 a (laneSel imm8 0))) 1 (lane 32 a (laneSel imm8 1)))
    2 (lane 32 b (laneSel imm8 2))) 3 (lane 32 b (laneSel imm8 3))

/-- The unit as built (41 R102). Which codes the catalogue holds is not given, and its closed forms change no result:
`CATALOGUE` is its generic path (log 10). -/
def shufBy (impl : ShufImpl) (a b : V128) (imm8 : Byte) : V128 :=
  match impl with
  | .native => shuf a b imm8
  | .catalogue => shufGeneric a b imm8
  | .generic => shufGeneric a b imm8

/-- SHUF (41 R100). -/
def execShuf (vd va vb : RegIdx) (imm8 : Byte) (s : State) : Result :=
  s.complete [va, vb] vd (shufBy s.config.shufImpl (s.readReg va) (s.readReg vb) imm8)

/-- The single-source patterns of 41 R103, the spec's reading of the catalogue families. -/
inductive Pattern where
  | identity | swapPairs | swapHalves | rotateToward0 | rotateToward3 | reverse
  | broadcast (n : BitVec 2)
  deriving DecidableEq, Repr

/-- The code of a pattern (41 R103). -/
def Pattern.code : Pattern → Byte
  | .identity => 0xE4#8
  | .swapPairs => 0xB1#8
  | .swapHalves => 0x4E#8
  | .rotateToward0 => 0x39#8
  | .rotateToward3 => 0x93#8
  | .reverse => 0x1B#8
  | .broadcast n => n.setWidth 8 * 0x55#8

end Sys2Proof.Machine
end

