-- ==== Sys2Proof/Machine/Dispatch.lean ====
section
/-! DEFINITION. One arm per command of 30 R72. -/

namespace Sys2Proof.Machine

def exec (i : Instr) (s : State) : Host.Outcome State Fault Refusal :=
  match i with
  | .shuf vd va vb imm8 => Sys2Proof.Machine.execShuf vd va vb imm8 s
  | .movmskb vd va => Sys2Proof.Machine.execMovmskb vd va s
  | .movmskps vd va => Sys2Proof.Machine.execMovmskps vd va s
  | .clmul vd va vb imm8 => Sys2Proof.Machine.execClmul vd va vb imm8 s
  | .aesenc vd va vb => Sys2Proof.Machine.execAesenc vd va vb s
  | .aesenclast vd va vb => Sys2Proof.Machine.execAesenclast vd va vb s
  | .aeskeygen vd va imm8 => Sys2Proof.Machine.execAeskeygen vd va imm8 s
  | .cvtps2dq vd va => Sys2Proof.Machine.execCvtps2dq vd va s
  | .cvtss2si vd va => Sys2Proof.Machine.execCvtss2si vd va s

end Sys2Proof.Machine
end

