-- ==== Sys2Proof/Machine/Transactions.lean ====
section
/-! DEFINITION. What each host transaction does (10 R27). `s` is the state with the transaction taken from the queue and no
response yet. -/

namespace Sys2Proof.Machine

/-- `Reset` (10 R27, R36). -/
def performReset (s : State) : Result := .next s.applyReset

/-- `WriteVec(i, x)`: `x[i] <- x`, and written(i) is set (10 R27). -/
def performWriteVec (i : RegIdx) (x : V128) (s : State) : Result := .next (s.writeReg i x)

/-- `ReadVec(i)`: answers `x[i]`; an unwritten register answers a free value and is recorded (10 R27, 60 R172; log 2). -/
def performReadVec (i : RegIdx) (s : State) : Result :=
  .next { s.recordReads [i] with response := some (.vec (s.readReg i)) }

/-- `Issue(cmd)`: decode, and execute the command or raise IllegalCommand (10 R27, 30 R65). -/
def performIssue (cmd : Word) (s : State) : Result :=
  match decode cmd with
  | .command i => exec i s
  | .illegal _ => .next (s.raiseIllegal cmd)

/-- `ReadStatus` (10 R27, R28). -/
def performReadStatus (s : State) : Result := .next { s with response := some (.status s.statusWord) }

/-- `ReadIllWord` (10 R27, R29). -/
def performReadIllWord (s : State) : Result := .next { s with response := some (.illWord s.illWord) }

/-- One transaction (10 R27). -/
def perform (t : Transaction) (s : State) : Result :=
  match t with
  | .reset => performReset s
  | .writeVec i x => performWriteVec i x s
  | .readVec i => performReadVec i s
  | .issue cmd => performIssue cmd s
  | .readStatus => performReadStatus s
  | .readIllWord => performReadIllWord s

/-- Take the next transaction from the host (20 R55): the queue without it, and the last response gone. -/
def State.taking (s : State) (rest : List Transaction) : State := { s with pending := rest, response := none }

/-- The next step of the block: one transaction, completely (70 R196). With none pending the block "is idle and holds
its state" (60 R183; log 7). -/
def nextStep (s : State) : Result :=
  match s.pending with
  | [] => .next s
  | t :: rest => perform t (s.taking rest)

/-- The state in which the host's next transaction issues `cmd`. -/
def State.withCommand (s : State) (cmd : Word) : State := { s with pending := .issue cmd :: s.pending }

end Sys2Proof.Machine
end

