-- ==== Sys2Proof/Machine/Step.lean ====
section
/-! DEFINITION. One step of the block (00 R7, 70 R196). -/

namespace Sys2Proof.Machine

/-- One step: one host transaction, or idle. -/
def step (s : State) : Host.Outcome State Fault Refusal := nextStep s

/-- `s` with the command `w` issued by the host's next transaction, which is where a step gets its command (10 R24; log 6). -/
def State.withFetchWord (s : State) (nbits w : Nat) : State := s.withCommand (cmdOfTable nbits w)

end Sys2Proof.Machine
end

