-- ==== Sys2Proof/Machine/Assembler.lean ====
section
/-! DEFINITION. The assembler (30 R77) and the expansions of the pseudo-instructions (30 R78). -/

namespace Sys2Proof.Machine

/-- The expansion of a line into a core line (30 R78); a core line is its own. -/
def expand : AsmLine → AsmLine
  | .pshufd vd va imm8 => .shuf vd va va imm8
  | .vmov vd va => .shuf vd va va 0xE4
  | .vbcast vd va n => .shuf vd va va (n * 0x55)
  | .clmullqlq vd va vb => .clmul vd va vb 0x00
  | .clmulhqlq vd va vb => .clmul vd va vb 0x01
  | .clmullqhq vd va vb => .clmul vd va vb 0x10
  | .clmulhqhq vd va vb => .clmul vd va vb 0x11
  | l => l

/-- A register as written. -/
def asReg (n : Nat) : RegIdx := BitVec.ofNat 4 n

/-- The command of a core line, its numbers in range. A pseudo-instruction has none before its expansion. -/
def coreInstr : AsmLine → Option Instr
  | .shuf vd va vb imm8 => some (.shuf (asReg vd) (asReg va) (asReg vb) (BitVec.ofNat 8 imm8))
  | .movmskb vd va => some (.movmskb (asReg vd) (asReg va))
  | .movmskps vd va => some (.movmskps (asReg vd) (asReg va))
  | .clmul vd va vb imm8 => some (.clmul (asReg vd) (asReg va) (asReg vb) (BitVec.ofNat 8 imm8))
  | .aesenc vd va vb => some (.aesenc (asReg vd) (asReg va) (asReg vb))
  | .aesenclast vd va vb => some (.aesenclast (asReg vd) (asReg va) (asReg vb))
  | .aeskeygen vd va imm8 => some (.aeskeygen (asReg vd) (asReg va) (BitVec.ofNat 8 imm8))
  | .cvtps2dq vd va => some (.cvtps2dq (asReg vd) (asReg va))
  | .cvtss2si vd va => some (.cvtss2si (asReg vd) (asReg va))
  | _ => none

/-- The command a line assembles to. A line with a number out of range is an assembly error, and the block never sees
it (30 R77, 93 U1). -/
def assemble (l : AsmLine) : Option Instr := if l.wellFormed then coreInstr (expand l) else none

/-- The word a line assembles to. -/
def assembleWord (l : AsmLine) : Option Word := (assemble l).map encode

/-- A line's mnemonic as it is spelled (30 R77, R78). -/
def mnemonic : AsmLine → String
  | .shuf .. => "SHUF"
  | .movmskb .. => "MOVMSKB"
  | .movmskps .. => "MOVMSKPS"
  | .clmul .. => "CLMUL"
  | .aesenc .. => "AESENC"
  | .aesenclast .. => "AESENCLAST"
  | .aeskeygen .. => "AESKEYGEN"
  | .cvtps2dq .. => "CVTPS2DQ"
  | .cvtss2si .. => "CVTSS2SI"
  | .pshufd .. => "PSHUFD"
  | .vmov .. => "VMOV"
  | .vbcast .. => "VBCAST"
  | .clmullqlq .. => "CLMULLQLQ"
  | .clmulhqlq .. => "CLMULHQLQ"
  | .clmullqhq .. => "CLMULLQHQ"
  | .clmulhqhq .. => "CLMULHQHQ"

/-- A line's text: the mnemonic, then its registers spelled `v0`..`v15` and its number in decimal (30 R77). -/
def render (l : AsmLine) : String :=
  mnemonic l ++ " " ++
    String.intercalate ", "
      (l.regs.map (fun r => "v" ++ toString r) ++ (l.imm?.toList ++ l.laneNo?.toList).map (fun n => toString n))

/-- An operand as it is spelled. -/
inductive Operand where
  | reg (n : Nat)
  | num (n : Nat)
  deriving DecidableEq, Repr

/-- The value of a digit, decimal or (lower or upper case) hexadecimal. -/
def digit (c : Char) : Option Nat :=
  let n := c.toNat
  if 48 ≤ n ∧ n ≤ 57 then some (n - 48)
  else if 65 ≤ n ∧ n ≤ 70 then some (n - 55)
  else if 97 ≤ n ∧ n ≤ 102 then some (n - 87)
  else none

/-- The digits of a number in base `base`, after the value `acc`. -/
def digits (base acc : Nat) : List Char → Option Nat
  | [] => some acc
  | c :: cs => do
    let d ← digit c
    if d < base then digits base (acc * base + d) cs else none

/-- A non-empty number in base `base`. DESIGN CHOICE, safe (log 15): leading zeros are accepted (`007`, and `v03` for a
register), of which 30 R77 says nothing. -/
def number (base : Nat) : List Char → Option Nat
  | [] => none
  | cs => digits base 0 cs

/-- One operand: a register `v<n>`, a `0x` hexadecimal number or a decimal number (30 R77). DESIGN CHOICE, safe (log 15): the
`v` and the `x` are lower case only. -/
def operand : List Char → Option Operand
  | 'v' :: cs => (number 10 cs).map .reg
  | '0' :: 'x' :: cs => (number 16 cs).map .num
  | cs => (number 10 cs).map .num

/-- The pieces of a text between the separators `sep`; `piece` is the piece so far, reversed. -/
def pieces (sep : Char) (piece : List Char) : List Char → List (List Char)
  | [] => [piece.reverse]
  | c :: cs => if c = sep then piece.reverse :: pieces sep [] cs else pieces sep (c :: piece) cs

/-- A text without the spaces around it. -/
def trim (cs : List Char) : List Char :=
  ((cs.dropWhile (· == ' ')).reverse.dropWhile (· == ' ')).reverse

/-- The operands of a text, separated by commas. -/
def operands (cs : List Char) : Option (List Operand) :=
  (pieces ',' [] cs).mapM (fun p => operand (trim p))

/-- The line of a mnemonic and its operands (30 R77, R78). -/
def lineOf (name : String) (ops : List Operand) : Option AsmLine :=
  match ops with
  | [.reg d, .reg a] =>
    if name = "MOVMSKB" then some (.movmskb d a)
    else if name = "MOVMSKPS" then some (.movmskps d a)
    else if name = "CVTPS2DQ" then some (.cvtps2dq d a)
    else if name = "CVTSS2SI" then some (.cvtss2si d a)
    else if name = "VMOV" then some (.vmov d a)
    else none
  | [.reg d, .reg a, .reg b] =>
    if name = "AESENC" then some (.aesenc d a b)
    else if name = "AESENCLAST" then some (.aesenclast d a b)
    else if name = "CLMULLQLQ" then some (.clmullqlq d a b)
    else if name = "CLMULHQLQ" then some (.clmulhqlq d a b)
    else if name = "CLMULLQHQ" then some (.clmullqhq d a b)
    else if name = "CLMULHQHQ" then some (.clmulhqhq d a b)
    else none
  | [.reg d, .reg a, .num n] =>
    if name = "AESKEYGEN" then some (.aeskeygen d a n)
    else if name = "PSHUFD" then some (.pshufd d a n)
    else if name = "VBCAST" then some (.vbcast d a n)
    else none
  | [.reg d, .reg a, .reg b, .num n] =>
    if name = "SHUF" then some (.shuf d a b n)
    else if name = "CLMUL" then some (.clmul d a b n)
    else none
  | _ => none

/-- Read a line `MNEMONIC operands` (30 R77). DESIGN CHOICE, safe (log 15): the mnemonic begins the line, in capitals, and ends
at the first space; operands are separated by commas, with any spaces around them. -/
def parse (text : String) : Option AsmLine := do
  let cs := text.toList
  let name := cs.takeWhile (· != ' ')
  let ops ← operands (cs.dropWhile (· != ' '))
  lineOf (String.ofList name) ops

/-- The word a text line assembles to. -/
def assembleText (text : String) : Option Word := (parse text).bind assembleWord

end Sys2Proof.Machine
end

