-- ==== Sys2Proof/Safety.lean ====
section
/-! DEFINITION. The terms claims are stated in: what a command reads and writes, the state invariant, what two states agree
on, and the mathematics the rules refer to (exact reals, GF(2)[x], GF(2^8)). -/

namespace Sys2Proof.Machine

/-- The registers a command reads, the column "reads" of 30 R72. -/
def sources : Instr → List RegIdx
  | .shuf _ va vb _ | .clmul _ va vb _ | .aesenc _ va vb | .aesenclast _ va vb => [va, vb]
  | .movmskb _ va | .movmskps _ va | .aeskeygen _ va _ | .cvtps2dq _ va | .cvtss2si _ va => [va]

/-- The register a command writes, the column "writes" of 30 R72. -/
def dest : Instr → RegIdx
  | .shuf vd _ _ _ | .clmul vd _ _ _ | .aesenc vd _ _ | .aesenclast vd _ _ => vd
  | .movmskb vd _ | .movmskps vd _ | .aeskeygen vd _ _ | .cvtps2dq vd _ | .cvtss2si vd _ => vd

/-- `t` is `s` after a command that reads `srcs` and writes `vd`: no other register changed, `vd` is written, no status register
changed ("Flags written: none"), and UnwrittenRead recorded for the sources that are unwritten (60 R172, log 4). -/
def WritesOnly (vd : RegIdx) (srcs : List RegIdx) (s t : State) : Prop :=
  (∀ r, r ≠ vd → t.cell r = s.cell r ∧ t.isWritten r = s.isWritten r) ∧ t.isWritten vd = true ∧
  t.status = s.status ∧ t.illWord = s.illWord ∧
  ∀ r, t.unwrittenRead r = (s.unwrittenRead r || (decide (r ∈ srcs) && !s.isWritten r))

/-- The invariant every step keeps. -/
structure Inv (s : State) : Prop where
  /-- The stored contents of an unwritten register are those after reset (the model's own canonical form, log 1). -/
  unwrittenCell : ∀ r, s.isWritten r = false → s.cell r = 0#128
  /-- STATUS bits 31:1 are 0 (10 R28). -/
  statusReserved : s.statusWord = s.status
  /-- ILLWORD keeps its reset value until ILL is set: it is written only then (10 R29). -/
  illWordClear : s.ill = false → s.illWord = 0#32
  /-- ILLWORD never holds a legal word (10 R29; the all-zero word is illegal, 30 R74). -/
  illWordIllegal : legal s.illWord = false

/-- `s'` is `s` but for what unwritten registers store: "a register whose written attribute is clear holds no value a
model may assume" (10 R22). -/
def AgreeOnWritten (s s' : State) : Prop :=
  s' = { s with v := s'.v } ∧ ∀ r, s.isWritten r = true → s'.cell r = s.cell r

/-- The first illegal command word among some transactions. -/
def firstIllegal : List Transaction → Option Word
  | [] => none
  | .issue cmd :: ts => if legal cmd then firstIllegal ts else some cmd
  | _ :: ts => firstIllegal ts

/-- The xor of some bits. -/
def xorAll : List Bool → Bool
  | [] => false
  | b :: bs => b ^^ xorAll bs

/-- The xor over all `(i, j)` with `0 <= i, j <= 63` and `i + j = k` of `p[i] & q[j]` (43 R121). -/
def convBit (p q : Half) (k : Nat) : Bool :=
  xorAll ((List.range 64).flatMap (fun i => (List.range 64).map (fun j => decide (i + j = k) && (p.getLsbD i && q.getLsbD j))))

/-- The product in GF(2^8): the xor of `a` doubled `i` times over the `i` with `b[i] = 1` (44 R131). -/
def gfMul (a b : Byte) : Byte :=
  (List.range 8).foldr (fun i acc => (if b.getLsbD i then xtime^[i] a else 0) ^^^ acc) 0

/-- The affine map `A` of 44 R130. -/
def sboxAffine (y : Byte) : Byte :=
  gather 8 (fun i => y.getLsbD i ^^ y.getLsbD ((i + 4) % 8) ^^ y.getLsbD ((i + 5) % 8) ^^ y.getLsbD ((i + 6) % 8) ^^
    y.getLsbD ((i + 7) % 8) ^^ (0x63#8).getLsbD i) 8

/-- The value of a binary32 lane, none for a NaN or an infinity (45 R151). -/
def f32Value (f : Word) : Option ℚ :=
  let sgn : ℚ := if f.getLsbD 31 then -1 else 1
  let e : Nat := (f.extractLsb' 23 8).toNat
  let t : ℚ := (f.extractLsb' 0 23).toNat
  if e = 255 then none
  else if e = 0 then some (sgn * (2 : ℚ) ^ (-126 : ℤ) * (t / 2 ^ 23))
  else some (sgn * (2 : ℚ) ^ ((e : ℤ) - 127) * (1 + t / 2 ^ 23))

/-- The integer `n` of 45 R154, over exact numbers: floor, ceiling and the difference to the floor. -/
def rneExact (x : ℚ) : ℤ :=
  let d := x - ⌊x⌋
  if d > 1 / 2 then ⌈x⌉ else if d < 1 / 2 then ⌊x⌋ else if ⌊x⌋ % 2 = 0 then ⌊x⌋ else ⌈x⌉

/-- `cvt_rne` over exact numbers (45 R154). -/
def cvtExact (cvtInvalid f : Word) : Word :=
  match f32Value f with
  | none => cvtInvalid
  | some x => if rneExact x < -2 ^ 31 ∨ rneExact x > 2 ^ 31 - 1 then cvtInvalid else BitVec.ofInt 32 (rneExact x)

end Sys2Proof.Machine
end

