-- ==== Sys2Proof/Certificates/Slice0/Obligations.lean ====
section
/-! DEFINITION. The statements for the provers. Where a statement speaks of `s.readReg r`, that is the register's contents
if it is written and a free value if not: the statement holds whatever that value is. That a command or a ReadVec which
reads an unwritten register answers a next state at all is the MODEL's choice and no rule of the spec, which names a
model-level fault there (log 2); so is that every unwritten source is recorded (log 4). A statement that rests on either
says so. The block has no memory a command could store to (20 R45), so no frame has a clause about memory. -/

open Sys2Proof Sys2Proof.Machine

/-! ## Encoding and decoding -/

/-- 30 R66: the six fields are the whole word, each bit in exactly one of them. -/
def Obligations.FieldsTileCommandWord : Prop :=
  ∀ cmd : Word, cmd.toNat = (immField cmd).toNat * 2 ^ 24 + (rsvField cmd).toNat * 2 ^ 20 + (vbField cmd).toNat * 2 ^ 16 +
    (vaField cmd).toNat * 2 ^ 12 + (vdField cmd).toNat * 2 ^ 8 + (opField cmd).toNat

/-- 30 R74: the words of clauses (a) and (b), and no others, are no command and raise IllegalCommand. -/
def Obligations.IllegalExactlyUnassignedOrReserved : Prop :=
  ∀ cmd : Word,
    ((decode cmd).instr? = none ↔ ((opField cmd = 0x00#8 ∨ 0x0A ≤ (opField cmd).toNat) ∨ rsvField cmd ≠ 0#4)) ∧
    (causeOf cmd = .illegalCommand ↔ ((opField cmd = 0x00#8 ∨ 0x0A ≤ (opField cmd).toNat) ∨ rsvField cmd ≠ 0#4))

/-- 30 R72, R77: the decoder reads back every command from its word, whatever its operands. -/
def Obligations.DecodeEncodeRoundTrip : Prop :=
  ∀ i : Instr, decode (encode i) = .command i

/-- 30 R66, R73: what a word decodes to keeps every bit the command uses. -/
def Obligations.DecodeDropsNoUsedBit : Prop :=
  ∀ (cmd : Word) (i : Instr), decode cmd = .command i →
    encode i &&& usedMask (opField cmd) = cmd &&& usedMask (opField cmd)

/-- 30 R73 (and R70 for the bits of `imm8`): a legal word that differs from another only in unused bits does the same, from
every state. -/
def Obligations.UnusedFieldsIgnored : Prop :=
  ∀ (cmd cmd' : Word) (s : State), legal cmd = true →
    cmd &&& usedMask (opField cmd) = cmd' &&& usedMask (opField cmd) → performIssue cmd s = performIssue cmd' s

/-- 30 R79: words written out field by field (op, vd, va, vb, rsv, imm8) decode to what they stand for. -/
def Obligations.WorkedEncodingsDecode : Prop :=
  decode 0x1B010201#32 = .command (.shuf 2 0 1 0x1B) ∧ decode 0x00005402#32 = .command (.movmskb 4 5) ∧
  decode 0x00001003#32 = .command (.movmskps 0 1) ∧ decode 0x11087604#32 = .command (.clmul 6 7 8 0x11) ∧
  decode 0x00010005#32 = .command (.aesenc 0 0 1) ∧ decode 0x000DEF06#32 = .command (.aesenclast 15 14 13) ∧
  decode 0x36002107#32 = .command (.aeskeygen 1 2 0x36) ∧ decode 0x0000A908#32 = .command (.cvtps2dq 9 10) ∧
  decode 0x0000CB09#32 = .command (.cvtss2si 11 12)

/-- 20 R49, 30 R76: a serialized command list gives each command from four bytes, byte 0 being bits 7:0. -/
def Obligations.SerializedCommandsDecode : Prop :=
  ∀ (cmd : Word) (rest : List Byte), decodeBytes (bytesOfCmd cmd ++ rest) = (decode cmd, rest)

/-- 30 R77: the assembler's words are legal, with 0 in each field their command does not use. -/
def Obligations.AssembledWordsLegal : Prop :=
  ∀ (l : AsmLine) (cmd : Word), assembleWord l = some cmd →
    legal cmd = true ∧ ((opField cmd).toNat ∈ [2, 3, 7, 8, 9] → vbField cmd = 0#4) ∧
      ((opField cmd).toNat ∈ [2, 3, 5, 6, 8, 9] → immField cmd = 0#8)

/-- 30 R77, 41 R105: a line whose immediate is outside 0..255 is an assembly error. -/
def Obligations.OutOfRangeImmediateRefused : Prop :=
  ∀ (l : AsmLine) (n : Nat), l.imm? = some n → 255 < n → assembleWord l = none

/-! ## Steps and transactions -/

/-- 10 R27, 30 R65: when the host's next transaction issues a word that decodes to `i`, the step is `exec i`, after the
transaction has been taken from the queue and the last response dropped (the model's form of the interface, log 6). -/
def Obligations.StepRunsDecodedCommand : Prop :=
  ∀ (s : State) (cmd : Word) (rest : List Transaction) (i : Instr),
    s.pending = .issue cmd :: rest → decode cmd = .command i → step s = exec i { s with pending := rest, response := none }

/-- 60 R171: what issuing an illegal command does, that it does nothing else, that the host's next transaction follows, and that
ILL then stays 1 until `Reset`. -/
def Obligations.IllegalCommandRecorded : Prop :=
  (∀ (s : State) (cmd : Word) (rest : List Transaction), s.pending = .issue cmd :: rest → legal cmd = false →
    ∃ t, step s = .next t ∧ t.ill = true ∧ t.illWord = (if s.ill = false then cmd else s.illWord) ∧
      (∀ k, 0 < k → t.status.getLsbD k = s.status.getLsbD k) ∧
      t.v = s.v ∧ t.written = s.written ∧ t.config = s.config ∧ t.unwrittenReads = s.unwrittenReads ∧
      t.freeReads = s.freeReads ∧ t.pending = rest ∧ t.response = none) ∧
  (∀ s t : State, step s = .next t → s.ill = true → t.ill = false → ∃ rest, s.pending = .reset :: rest)

/-- 60 R170: the cause code of a command is 1 exactly when it is illegal, and else 0. -/
def Obligations.CauseCodes : Prop :=
  ∀ cmd : Word, (causeOf cmd).code = if legal cmd then 0 else 1

/-- 60 R170, R171, R175: nothing stops the block: from every state a step answers a next state. For a read of an unwritten
register that is the model's choice (log 2). -/
def Obligations.StepNeverStops : Prop :=
  ∀ s : State, ∃ t, step s = .next t

/-- 70 R196, 20 R55: a step performs the host's next transaction, completely, and leaves exactly the others pending, in their order;
so after as many steps as transactions are pending, none is. For a transaction that reads an unwritten register, that it
completes is the model's choice (log 2). -/
def Obligations.PendingTransactionsComplete : Prop :=
  (∀ (s : State) (tr : Transaction) (rest : List Transaction), s.pending = tr :: rest →
    ∃ t, step s = perform tr (s.taking rest) ∧ perform tr (s.taking rest) = .next t ∧ t.pending = rest) ∧
  ∀ s : State, ∃ t, core.run s.pending.length s = .next t ∧ t.pending = []

/-- 60 R183: with no transaction pending the block holds its state. -/
def Obligations.IdleHoldsState : Prop :=
  ∀ s : State, s.pending = [] → step s = .next s

/-- 10 R36: the state after reset. The cleared record, the empty queue and the absent response are the model's (log 4, 5, 6). -/
def Obligations.ResetStateValues : Prop :=
  (∀ r, State.reset.isWritten r = false) ∧ State.reset.statusWord = 0x00000000#32 ∧ State.reset.ill = false ∧
  State.reset.illWord = 0x00000000#32 ∧ State.reset.config.cvtInvalid = 0x80000000#32 ∧
  (∀ r, State.reset.unwrittenRead r = false) ∧ State.reset.pending = [] ∧ State.reset.response = none

/-- 10 R36, 70 R190, R192: the `Reset` transaction. That the record of UnwrittenRead stays is the model's reading of 60 R172
(log 4). -/
def Obligations.ResetTransactionEffect : Prop :=
  ∀ (s : State) (rest : List Transaction), s.pending = .reset :: rest →
    ∃ t, step s = .next t ∧ (∀ r, t.isWritten r = false) ∧ t.status = 0x00000000#32 ∧ t.illWord = 0x00000000#32 ∧
      t.config = s.config ∧ t.unwrittenReads = s.unwrittenReads ∧ t.pending = rest ∧ t.response = none

/-- 10 R27, 20 R52: `WriteVec(i, x)` gives register `i` all 128 bits of `x`, marks it written, and changes nothing else of the
block; it has no response. -/
def Obligations.WriteVecEffect : Prop :=
  ∀ (s : State) (i : RegIdx) (x : V128) (rest : List Transaction), s.pending = .writeVec i x :: rest →
    ∃ t, step s = .next t ∧ t.cell i = x ∧ t.isWritten i = true ∧
      (∀ r, r ≠ i → t.cell r = s.cell r ∧ t.isWritten r = s.isWritten r) ∧
      t.status = s.status ∧ t.illWord = s.illWord ∧ t.config = s.config ∧ t.unwrittenReads = s.unwrittenReads ∧
      t.freeReads = s.freeReads ∧ t.pending = rest ∧ t.response = none

/-- 10 R27, 20 R55: what `WriteVec` writes is what the very next `ReadVec` of that register answers. -/
def Obligations.ReadVecAnswersWriteVec : Prop :=
  ∀ (s : State) (i : RegIdx) (x : V128) (rest : List Transaction), s.pending = .writeVec i x :: .readVec i :: rest →
    ∃ t, core.run 2 s = .next t ∧ t.response = some (.vec x) ∧ t.pending = rest

/-- 10 R27: `ReadVec(i)` of a written register answers it and changes nothing of the block. -/
def Obligations.ReadVecOfWritten : Prop :=
  ∀ (s : State) (i : RegIdx) (rest : List Transaction), s.pending = .readVec i :: rest → s.isWritten i = true →
    step s = .next { s with pending := rest, response := some (.vec (s.cell i)) }

/-- 10 R27, 60 R172: `ReadVec(i)` of an unwritten register answers an unspecified value, which is a free value of the model
(log 2) of the count and `i` alone (log 19), and `UnwrittenRead(i)` is recorded; the block itself is unchanged. -/
def Obligations.ReadVecOfUnwritten : Prop :=
  ∀ (s : State) (i : RegIdx) (rest : List Transaction), s.pending = .readVec i :: rest → s.isWritten i = false →
    ∃ t, step s = .next t ∧ t.response = some (.vec (Config.unwrittenValue s.freeReads i)) ∧ t.unwrittenRead i = true ∧
      (∀ r, r ≠ i → t.unwrittenRead r = s.unwrittenRead r) ∧ t.v = s.v ∧ t.written = s.written ∧
      t.status = s.status ∧ t.illWord = s.illWord ∧ t.config = s.config ∧ t.pending = rest

/-- 10 R28: `ReadStatus` answers ILL in bit 0 and 0 in bits 31:1, and changes nothing of the block. -/
def Obligations.ReadStatusAnswersIll : Prop :=
  ∀ (s : State) (rest : List Transaction), s.pending = .readStatus :: rest →
    ∃ w : Word, step s = .next { s with pending := rest, response := some (.status w) } ∧
      w.getLsbD 0 = s.ill ∧ ∀ k, 0 < k → w.getLsbD k = false

/-- 10 R27, R29: `ReadIllWord` answers ILLWORD and changes nothing of the block. -/
def Obligations.ReadIllWordAnswers : Prop :=
  ∀ (s : State) (rest : List Transaction), s.pending = .readIllWord :: rest →
    step s = .next { s with pending := rest, response := some (.illWord s.illWord) }

/-- 10 R27: "No transaction changes STATUS or ILLWORD except `Reset` and an illegal `Issue`." -/
def Obligations.OnlyResetAndIllegalIssueTouchStatus : Prop :=
  ∀ s t : State, step s = .next t → (t.status ≠ s.status ∨ t.illWord ≠ s.illWord) →
    ∃ rest, s.pending = .reset :: rest ∨ ∃ cmd, s.pending = .issue cmd :: rest ∧ legal cmd = false

/-- 10 R22: only `Reset` clears a written attribute. -/
def Obligations.OnlyResetClearsWritten : Prop :=
  ∀ (s t : State) (r : RegIdx), step s = .next t → s.isWritten r = true → t.isWritten r = false →
    ∃ rest, s.pending = .reset :: rest

/-- 10 R21, R22, R27: only `Reset`, `WriteVec` of that register and a legal command that names it as `vd` change a register. -/
def Obligations.OnlyNamedRegisterChanges : Prop :=
  ∀ (s t : State) (r : RegIdx), step s = .next t → (t.cell r ≠ s.cell r ∨ t.isWritten r ≠ s.isWritten r) →
    ∃ rest, s.pending = .reset :: rest ∨ (∃ x, s.pending = .writeVec r x :: rest) ∨
      ∃ cmd i, s.pending = .issue cmd :: rest ∧ decode cmd = .command i ∧ dest i = r

/-- 10 R31, 70 R192: no step changes the implementation parameters. -/
def Obligations.ParametersNeverChange : Prop :=
  ∀ s t : State, step s = .next t → t.config = s.config

/-- 60 R172, as the model reads it (log 4): a recorded UnwrittenRead is never cleared. -/
def Obligations.UnwrittenReadNeverCleared : Prop :=
  ∀ (s t : State) (r : RegIdx), step s = .next t → s.unwrittenRead r = true → t.unwrittenRead r = true

/-- 10 R29, R28, R36: after a `Reset` and then any transactions `ts` without another, ILLWORD is the first illegal command word
issued, or still 0 if there was none, and STATUS reads 1 or 0 accordingly. That a run goes on past a read of an unwritten
register is the model's choice (log 2). -/
def Obligations.IllWordHoldsFirstIllegal : Prop :=
  ∀ (s : State) (ts : List Transaction), s.pending = .reset :: ts → Transaction.reset ∉ ts →
    ∃ t, core.run (ts.length + 1) s = .next t ∧ t.illWord = (firstIllegal ts).getD 0x00000000#32 ∧
      t.statusWord = if (firstIllegal ts).isSome then 0x00000001#32 else 0x00000000#32

/-! ## Invariants, isolation and strategies -/

/-- The state after reset meets the invariant (10 R28, R29, R36; its clause on unwritten cells is the model's, log 1). -/
def Obligations.ResetMeetsInvariant : Prop := Inv State.reset

/-- Every step keeps the invariant: STATUS's reserved bits stay 0, ILLWORD stays 0 until ILL is set and never holds a legal
word (10 R28, R29), and unwritten cells keep the model's reset contents (log 1). -/
def Obligations.StepKeepsInvariant : Prop :=
  ∀ s t : State, Inv s → step s = .next t → Inv t

/-- 10 R22: what an unwritten register stores reaches nothing: two states that differ only there step to two that differ only
there, with the same response. For a step that reads an unwritten register this is the model's choice: the read completes
(log 2) with a value that does not depend on what the register stores (log 19). -/
def Obligations.UnwrittenCellsUnobservable : Prop :=
  ∀ s s' t : State, AgreeOnWritten s s' → step s = .next t →
    ∃ t', step s' = .next t' ∧ AgreeOnWritten t t' ∧ t'.response = t.response

/-- 00 R9: whichever strategies are built, every step does the same, and no step changes them. For a step that reads an unwritten
register this is the model's choice: the read completes (log 2) with a value that does not depend on the build (log 19). -/
def Obligations.StrategiesUnobservable : Prop :=
  ∀ (s t : State) (c : Config), c.cvtInvalid = s.config.cvtInvalid → step s = .next t →
    step { s with config := c } = .next { t with config := c } ∧ t.config = s.config

/-! ## What every command changes and leaves unchanged -/

/-- The frame of SHUF, MOVMSKB, MOVMSKPS, CLMUL, AESENC, AESENCLAST, AESKEYGEN, CVTPS2DQ and CVTSS2SI (30 R72, 10 R30, 20 R52,
44 R140, 60 R170): of the block only the register `vd` and its written attribute change, and STATUS, ILLWORD, the
parameters, the host's queue and the response do not. A command stores to no memory: there is none (20 R45). -/
def Obligations.CommandFrame : Prop :=
  ∀ (i : Instr) (s t : State), exec i s = .next t →
    (∀ r, r ≠ dest i → t.cell r = s.cell r ∧ t.isWritten r = s.isWritten r) ∧ t.isWritten (dest i) = true ∧
    t.status = s.status ∧ t.illWord = s.illWord ∧ t.config = s.config ∧ t.pending = s.pending ∧ t.response = s.response

/-- 60 R172, R174 for the nine commands: UnwrittenRead is recorded for exactly the unwritten sources (that all of them are is the
model's choice, log 4); with all sources written, neither the record nor the count of free values moves. -/
def Obligations.UnwrittenSourcesRecorded : Prop :=
  ∀ (i : Instr) (s t : State), exec i s = .next t →
    (∀ r, t.unwrittenRead r = (s.unwrittenRead r || (decide (r ∈ sources i) && !s.isWritten r))) ∧
    ((∀ r ∈ sources i, s.isWritten r = true) → t.unwrittenReads = s.unwrittenReads ∧ t.freeReads = s.freeReads)

/-- 60 R172 and the program P6 of 95: SHUF with its second source unwritten completes, lanes 1:0 from the written source, and
STATUS.ILL is not set. That it completes is the model's choice (log 2). -/
def Obligations.ShufWithUnwrittenSource : Prop :=
  ∀ (vd va vb : RegIdx) (imm8 : Byte) (s : State), s.isWritten va = true → s.isWritten vb = false →
    ∃ t, exec (.shuf vd va vb imm8) s = .next t ∧
      lane 32 (t.cell vd) 0 = lane 32 (s.cell va) (imm8.extractLsb' 0 2).toNat ∧
      lane 32 (t.cell vd) 1 = lane 32 (s.cell va) (imm8.extractLsb' 2 2).toNat ∧
      t.unwrittenRead vb = true ∧ t.status = s.status

/-! ## The Permutation Dispatcher -/

/-- 41 R100: lane i of the result is the source lane that bits 2i+1:2i of the code select, from `va` for i = 0, 1 and from `vb`
for i = 2, 3; sources are read before `vd` is written. That it completes with an unwritten source, and that
each unwritten source is recorded, are the model's choices (log 2, log 4). -/
def Obligations.ShufResult : Prop :=
  ∀ (vd va vb : RegIdx) (imm8 : Byte) (s : State),
    ∃ t, exec (.shuf vd va vb imm8) s = .next t ∧ WritesOnly vd [va, vb] s t ∧
      ∀ i, i < 4 → lane 32 (t.cell vd) i =
        lane 32 (s.readReg (if i < 2 then va else vb)) (((imm8 >>> (2 * i)) &&& 3#8).toNat)

/-- 41 R101, R103: with `va = vb` the code of each named pattern gives the lanes the table lists. That it completes with `va`
unwritten is the model's choice (log 2). -/
def Obligations.ShufNamedPatterns : Prop :=
  ∀ (vd va : RegIdx) (p : Pattern) (s : State),
    ∃ t, exec (.shuf vd va va p.code) s = .next t ∧
      ∀ i, i < 4 → lane 32 (t.cell vd) i = lane 32 (s.readReg va)
        (match p with
         | .identity => i
         | .swapPairs => i ^^^ 1
         | .swapHalves => i ^^^ 2
         | .rotateToward0 => (i + 1) % 4
         | .rotateToward3 => (i + 3) % 4
         | .reverse => 3 - i
         | .broadcast n => n.toNat)

/-- 30 R78: VMOV copies, VBCAST copies lane n to every lane, PSHUFD permutes one source. That it completes with `va`
unwritten is the model's choice (log 2). -/
def Obligations.ShufPseudoInstructions : Prop :=
  ∀ (vd va : RegIdx) (s : State),
    (∃ i t, assemble (.vmov vd.toNat va.toNat) = some i ∧ exec i s = .next t ∧ t.cell vd = s.readReg va) ∧
    (∀ n, n < 4 → ∃ i t, assemble (.vbcast vd.toNat va.toNat n) = some i ∧ exec i s = .next t ∧
      ∀ k, k < 4 → lane 32 (t.cell vd) k = lane 32 (s.readReg va) n) ∧
    (∀ imm8 : Byte, ∃ i t, assemble (.pshufd vd.toNat va.toNat imm8.toNat) = some i ∧ exec i s = .next t ∧
      ∀ k, k < 4 → lane 32 (t.cell vd) k = lane 32 (s.readReg va) (((imm8 >>> (2 * k)) &&& 3#8).toNat))

/-! ## The Mask Extractor -/

/-- 42 R110: bit i of the result is the most significant bit of byte i for i < 16; bits 127:16 are 0. That it completes with
`va` unwritten, and how that is recorded, are the model's choices (log 2, log 4). -/
def Obligations.MovmskbResult : Prop :=
  ∀ (vd va : RegIdx) (s : State),
    ∃ t, exec (.movmskb vd va) s = .next t ∧ WritesOnly vd [va] s t ∧
      ∀ k, (t.cell vd).getLsbD k = (decide (k < 16) && (s.readReg va).getLsbD (8 * k + 7))

/-- 42 R111: bit i of the result is bit 31 of the 32-bit lane i for i < 4; bits 127:4 are 0. That it completes with `va`
unwritten, and how that is recorded, are the model's choices (log 2, log 4). -/
def Obligations.MovmskpsResult : Prop :=
  ∀ (vd va : RegIdx) (s : State),
    ∃ t, exec (.movmskps vd va) s = .next t ∧ WritesOnly vd [va] s t ∧
      ∀ k, (t.cell vd).getLsbD k = (decide (k < 4) && (s.readReg va).getLsbD (32 * k + 31))

/-! ## The Carry-less Multiplier -/

/-- 43 R121: the reference product, bit by bit, and as the xor of shifted copies of `p`. -/
def Obligations.ClmulIsXorConvolution : Prop :=
  ∀ p q : Half, (∀ k, k < 128 → (clmul64 p q).getLsbD k = convBit p q k) ∧
    clmul64 p q = (List.range 64).foldl (fun r j => if q.getLsbD j then r ^^^ (p.setWidth 128 <<< j) else r) 0#128

/-- 43 R120, R125: CLMUL's result, bit k being the convolution of the halves that `imm8[0]` and `imm8[4]` select. That it
completes with an unwritten source, and that each unwritten source is recorded, are the model's choices (log 2, log 4). -/
def Obligations.ClmulResult : Prop :=
  ∀ (vd va vb : RegIdx) (imm8 : Byte) (s : State),
    ∃ t, exec (.clmul vd va vb imm8) s = .next t ∧ WritesOnly vd [va, vb] s t ∧
      ∀ k, k < 128 → (t.cell vd).getLsbD k =
        convBit (lane 64 (s.readReg va) (if imm8.getLsbD 0 then 1 else 0)) (lane 64 (s.readReg vb) (if imm8.getLsbD 4 then 1 else 0)) k

/-- 43 R122: the laws of the product. -/
def Obligations.ClmulLaws : Prop :=
  ∀ p q r : Half,
    clmul64 p q = clmul64 q p ∧ clmul64 p 0 = 0 ∧ clmul64 p 1 = p.setWidth 128 ∧
    clmul64 p (q ^^^ r) = clmul64 p q ^^^ clmul64 p r ∧
    (∀ j, j < 64 → clmul64 p (1#64 <<< j) = p.setWidth 128 <<< j) ∧
    (clmul64 p q).getLsbD 127 = false ∧
    (∀ m n, p.getLsbD m = true → (∀ k, m < k → p.getLsbD k = false) → q.getLsbD n = true → (∀ k, n < k → q.getLsbD k = false) →
      (clmul64 p q).getLsbD (m + n) = true ∧ ∀ k, m + n < k → (clmul64 p q).getLsbD k = false) ∧
    (∀ i, i < 64 → (clmul64 p p).getLsbD (2 * i) = p.getLsbD i ∧ (clmul64 p p).getLsbD (2 * i + 1) = false)

/-! ## The Block-Cipher Round Emulator (constants the spec marks as general knowledge, log 12) -/

/-- 44 R130: the S-box is the affine map of the inverse in GF(2^8). -/
def Obligations.SboxIsAffineOfInverse : Prop :=
  sbox 0 = sboxAffine 0 ∧ ∀ x : Byte, x ≠ 0 → ∃ y : Byte, gfMul x y = 1 ∧ sbox x = sboxAffine y

/-- 44 R134: substitution and rotation commute. -/
def Obligations.SubBytesShiftRowsCommute : Prop :=
  ∀ s : V128, subBytes (shiftRows s) = shiftRows (subBytes s)

/-- 44 R132, R133, R136: AESENC. Row r of column c is the r-th row of the mixing matrix applied to the substituted bytes of rows
0..3 of columns c, c+1, c+2, c+3, with the key byte injected last. That it completes with an unwritten source, and that
each unwritten source is recorded, are the model's choices (log 2, log 4). -/
def Obligations.AesencResult : Prop :=
  ∀ (vd va vb : RegIdx) (s : State),
    ∃ t, exec (.aesenc vd va vb) s = .next t ∧ WritesOnly vd [va, vb] s t ∧ ∀ c, c < 4 →
      let x (r : Nat) : Byte := sbox (byte (s.readReg va) (4 * ((c + r) % 4) + r))
      let k (r : Nat) : Byte := byte (s.readReg vb) (4 * c + r)
      byte (t.cell vd) (4 * c) = gfMul (x 0) 2 ^^^ gfMul (x 1) 3 ^^^ x 2 ^^^ x 3 ^^^ k 0 ∧
      byte (t.cell vd) (4 * c + 1) = x 0 ^^^ gfMul (x 1) 2 ^^^ gfMul (x 2) 3 ^^^ x 3 ^^^ k 1 ∧
      byte (t.cell vd) (4 * c + 2) = x 0 ^^^ x 1 ^^^ gfMul (x 2) 2 ^^^ gfMul (x 3) 3 ^^^ k 2 ∧
      byte (t.cell vd) (4 * c + 3) = gfMul (x 0) 3 ^^^ x 1 ^^^ x 2 ^^^ gfMul (x 3) 2 ^^^ k 3

/-- 44 R132, R133, R137: AESENCLAST, the round without mixing. That it completes with an unwritten source, and that
each unwritten source is recorded, are the model's choices (log 2, log 4). -/
def Obligations.AesenclastResult : Prop :=
  ∀ (vd va vb : RegIdx) (s : State),
    ∃ t, exec (.aesenclast vd va vb) s = .next t ∧ WritesOnly vd [va, vb] s t ∧ ∀ c r, c < 4 → r < 4 →
      byte (t.cell vd) (4 * c + r) = sbox (byte (s.readReg va) (4 * ((c + r) % 4) + r)) ^^^ byte (s.readReg vb) (4 * c + r)

/-- 44 R135, R138: AESKEYGEN, byte by byte. Lanes 0 and 2 are substituted words 1 and 3; lanes 1 and 3 are those words with
each byte moved down by one, byte 0 to byte 3, and the round constant in their low byte. That it completes with `va`
unwritten, and how that is recorded, are the model's choices (log 2, log 4). -/
def Obligations.AeskeygenResult : Prop :=
  ∀ (vd va : RegIdx) (imm8 : Byte) (s : State),
    ∃ t, exec (.aeskeygen vd va imm8) s = .next t ∧ WritesOnly vd [va] s t ∧ ∀ h r, h < 2 → r < 4 →
      byte (t.cell vd) (8 * h + r) = sbox (byte (s.readReg va) (8 * h + 4 + r)) ∧
      byte (t.cell vd) (8 * h + 4 + r) =
        sbox (byte (s.readReg va) (8 * h + 4 + (r + 1) % 4)) ^^^ (if r = 0 then imm8 else 0)

/-! ## The Rounding/Conversion Helper -/

/-- 45 R152, R154, R156: CVTPS2DQ converts each lane on its own by the exact algorithm of R154, whatever `CVT_INVALID` is.
That it completes with `va` unwritten, and how that is recorded, are the model's choices (log 2, log 4). -/
def Obligations.Cvtps2dqResult : Prop :=
  ∀ (vd va : RegIdx) (s : State),
    ∃ t, exec (.cvtps2dq vd va) s = .next t ∧ WritesOnly vd [va] s t ∧
      ∀ i, i < 4 → lane 32 (t.cell vd) i = cvtExact s.config.cvtInvalid (lane 32 (s.readReg va) i)

/-- 45 R153, R154, R156: CVTSS2SI converts lane 0 and zero-extends. That it completes with `va` unwritten, and how that is
recorded, are the model's choices (log 2, log 4). -/
def Obligations.Cvtss2siResult : Prop :=
  ∀ (vd va : RegIdx) (s : State),
    ∃ t, exec (.cvtss2si vd va) s = .next t ∧ WritesOnly vd [va] s t ∧
      lane 32 (t.cell vd) 0 = cvtExact s.config.cvtInvalid (lane 32 (s.readReg va) 0) ∧
      ∀ i, 0 < i → i < 4 → lane 32 (t.cell vd) i = 0#32

/-- 45 R150, R154: a lane with a value x converts to an integer within one half of x, the even one at a tie, and never another;
or to `CVT_INVALID` if that integer is outside the signed 32-bit range. -/
def Obligations.ConversionRoundsToNearestEven : Prop :=
  ∀ (cvtInvalid f : Word) (x : ℚ), f32Value f = some x →
    ∃! n : ℤ, (|x - n| ≤ 1 / 2 ∧ (|x - n| = 1 / 2 → n % 2 = 0)) ∧
      cvtRne cvtInvalid f = if -2 ^ 31 ≤ n ∧ n ≤ 2 ^ 31 - 1 then BitVec.ofInt 32 n else cvtInvalid

/-- 45 R155, R156: the valid inputs are exactly the finite f with -2^31 <= value(f) < 2^31: those alone have a result that does not
depend on `CVT_INVALID`. -/
def Obligations.ValidConversionInputs : Prop :=
  ∀ f : Word, (∀ k k' : Word, cvtRne k f = cvtRne k' f) ↔ ∃ x : ℚ, f32Value f = some x ∧ -2 ^ 31 ≤ x ∧ x < 2 ^ 31

/-! ## Views -/

/-- 00 R11: lanes, packed lanes and bytes; a view changes only how bits are read. -/
def Obligations.RepackedLanesAreTheRegister : Prop :=
  ∀ (v : V128) (w : Nat), w ∈ [8, 16, 32, 64] → pack w (lane w v) = v ∧
    (∀ i k, i < 128 / w → k < w → (lane w v i).getLsbD k = v.getLsbD (w * i + k)) ∧
    (∀ (l : Nat → BitVec w) (i : Nat), i < 128 / w → lane w (pack w l) i = l i) ∧ ∀ i, byte v i = lane 8 v i
end

