-- ==== Sys2Proof/Laws/Decode.lean ====
section
/-! SUPPORT. The fields of a word that `makeCmd` builds, and the opcode a command's word carries. -/

namespace Sys2Proof

@[simp] theorem opField_makeCmd (op : Byte) (vd va vb : RegIdx) (imm8 : Byte) : opField (makeCmd op vd va vb imm8) = op := by
  apply BitVec.eq_of_getLsbD_eq
  intro k hk
  simp only [opField, makeCmd, BitVec.getLsbD_extractLsb', BitVec.getLsbD_or, BitVec.getLsbD_shiftLeft, BitVec.getLsbD_setWidth]
  simp [hk, show k < 12 by omega, show k < 16 by omega, show k < 24 by omega, show k < 32 by omega]

@[simp] theorem vdField_makeCmd (op : Byte) (vd va vb : RegIdx) (imm8 : Byte) : vdField (makeCmd op vd va vb imm8) = vd := by
  apply BitVec.eq_of_getLsbD_eq
  intro k hk
  simp only [vdField, makeCmd, BitVec.getLsbD_extractLsb', BitVec.getLsbD_or, BitVec.getLsbD_shiftLeft, BitVec.getLsbD_setWidth]
  simp [hk, show 8 + k < 12 by omega, show 8 + k < 16 by omega, show 8 + k < 24 by omega, show 8 + k < 32 by omega, show 8 + k - 8 = k by omega, show k < 32 by omega]

@[simp] theorem vaField_makeCmd (op : Byte) (vd va vb : RegIdx) (imm8 : Byte) : vaField (makeCmd op vd va vb imm8) = va := by
  apply BitVec.eq_of_getLsbD_eq
  intro k hk
  simp only [vaField, makeCmd, BitVec.getLsbD_extractLsb', BitVec.getLsbD_or, BitVec.getLsbD_shiftLeft, BitVec.getLsbD_setWidth]
  simp [hk, BitVec.getLsbD_of_ge op (12 + k) (by omega), BitVec.getLsbD_of_ge vd (12 + k - 8) (by omega), show 12 + k < 16 by omega, show 12 + k < 24 by omega, show 12 + k < 32 by omega, show 12 + k - 12 = k by omega, show k < 32 by omega]

@[simp] theorem vbField_makeCmd (op : Byte) (vd va vb : RegIdx) (imm8 : Byte) : vbField (makeCmd op vd va vb imm8) = vb := by
  apply BitVec.eq_of_getLsbD_eq
  intro k hk
  simp only [vbField, makeCmd, BitVec.getLsbD_extractLsb', BitVec.getLsbD_or, BitVec.getLsbD_shiftLeft, BitVec.getLsbD_setWidth]
  simp [hk, BitVec.getLsbD_of_ge op (16 + k) (by omega), BitVec.getLsbD_of_ge vd (16 + k - 8) (by omega), BitVec.getLsbD_of_ge va (16 + k - 12) (by omega), show 16 + k < 24 by omega, show 16 + k < 32 by omega, show 16 + k - 16 = k by omega, show k < 32 by omega]

@[simp] theorem rsvField_makeCmd (op : Byte) (vd va vb : RegIdx) (imm8 : Byte) : rsvField (makeCmd op vd va vb imm8) = 0#4 := by
  apply BitVec.eq_of_getLsbD_eq
  intro k hk
  simp only [rsvField, makeCmd, BitVec.getLsbD_extractLsb', BitVec.getLsbD_or, BitVec.getLsbD_shiftLeft, BitVec.getLsbD_setWidth]
  simp [hk, BitVec.getLsbD_of_ge op (20 + k) (by omega), BitVec.getLsbD_of_ge vd (20 + k - 8) (by omega), BitVec.getLsbD_of_ge va (20 + k - 12) (by omega), BitVec.getLsbD_of_ge vb (20 + k - 16) (by omega), show 20 + k < 24 by omega, show 20 + k < 32 by omega]

@[simp] theorem immField_makeCmd (op : Byte) (vd va vb : RegIdx) (imm8 : Byte) : immField (makeCmd op vd va vb imm8) = imm8 := by
  apply BitVec.eq_of_getLsbD_eq
  intro k hk
  simp only [immField, makeCmd, BitVec.getLsbD_extractLsb', BitVec.getLsbD_or, BitVec.getLsbD_shiftLeft, BitVec.getLsbD_setWidth]
  simp [hk, BitVec.getLsbD_of_ge op (24 + k) (by omega), BitVec.getLsbD_of_ge vd (24 + k - 8) (by omega), BitVec.getLsbD_of_ge va (24 + k - 12) (by omega), BitVec.getLsbD_of_ge vb (24 + k - 16) (by omega), show 24 + k < 32 by omega, show 24 + k - 24 = k by omega, show k < 32 by omega]

/-- The word of a command carries its opcode and a zero `rsv`. -/
theorem opField_encode (i : Instr) : opField (encode i) = opcode i := by
  cases i <;> simp [encode]

theorem rsvField_encode (i : Instr) : rsvField (encode i) = 0#4 := by
  cases i <;> simp [encode]

end Sys2Proof
end

