-- ==== Sys2Proof/Laws/Operands.lean ====
section
/-! SUPPORT. The bits of lanes, packed lanes and gathered masks. -/

namespace Sys2Proof.Machine

@[simp] theorem getLsbD_lane (w : Nat) (v : V128) (i k : Nat) :
    (lane w v i).getLsbD k = (decide (k < w) && v.getLsbD (w * i + k)) := by
  simp [lane, BitVec.getLsbD_extractLsb']

@[simp] theorem getElem_lane (w : Nat) (v : V128) (i k : Nat) (hk : k < w) : (lane w v i)[k] = v.getLsbD (w * i + k) := by
  rw [← BitVec.getLsbD_eq_getElem hk, getLsbD_lane, decide_eq_true hk, Bool.true_and]

/-- A bit of packed lanes is the bit of the lane it lies in. -/
theorem getLsbD_packLanes (w : Nat) (l : Nat → BitVec w) (n k : Nat) :
    (packLanes w l n).getLsbD k = (decide (k < 128) && decide (k < w * n) && (l (k / w)).getLsbD (k % w)) := by
  induction n with
  | zero => simp [packLanes]
  | succ n ih =>
    rw [packLanes, BitVec.getLsbD_or, ih, BitVec.getLsbD_shiftLeft, BitVec.getLsbD_setWidth, Nat.mul_succ]
    by_cases h : k < w * n
    · simp [h, Nat.lt_of_lt_of_le h (Nat.le_add_right _ w)]
    · have hge : w * n ≤ k := Nat.le_of_not_lt h
      by_cases h2 : k < w * n + w
      · have hdiv : k / w = n := Nat.div_eq_of_lt_le (by rw [Nat.mul_comm]; exact hge) (by rw [Nat.succ_mul, Nat.mul_comm]; exact h2)
        have hmod : k % w = k - w * n := by
          have := Nat.div_add_mod k w
          rw [hdiv] at this; omega
        by_cases h3 : k < 128
        · simp [h, h2, h3, hdiv, hmod]; intro _; omega
        · simp [h3]
      · have hout : (l n).getLsbD (k - w * n) = false := BitVec.getLsbD_of_ge _ _ (by omega)
        simp [h, h2, hout]

theorem getLsbD_pack (w : Nat) (hd : w ∣ 128) (l : Nat → BitVec w) (k : Nat) :
    (pack w l).getLsbD k = (decide (k < 128) && (l (k / w)).getLsbD (k % w)) := by
  rw [pack, getLsbD_packLanes w, Nat.mul_div_cancel' hd]
  cases decide (k < 128) <;> rfl

/-- Lane `i` of packed lanes is the `i`-th of them. -/
theorem lane_pack (w : Nat) (hw : 0 < w) (hd : w ∣ 128) (l : Nat → BitVec w) (i : Nat) (hi : i < 128 / w) :
    lane w (pack w l) i = l i := by
  apply BitVec.eq_of_getLsbD_eq
  intro k hk
  have hlt : w * i + k < 128 := by
    have := Nat.mul_le_mul_left w hi
    rw [Nat.mul_div_cancel' hd, Nat.mul_succ] at this; omega
  have hdiv : (w * i + k) / w = i := by
    rw [Nat.mul_add_div hw, Nat.div_eq_of_lt hk, Nat.add_zero]
  have hmod : (w * i + k) % w = k := by rw [Nat.mul_add_mod, Nat.mod_eq_of_lt hk]
  rw [getLsbD_lane, getLsbD_pack w hd, hdiv, hmod]
  simp [hk, hlt]

/-- Two registers with the same lanes are the same. -/
theorem ext_lanes (w : Nat) (hw : 0 < w) (a b : V128) (h : ∀ i, i < 128 / w + 1 → lane w a i = lane w b i) :
    a = b := by
  apply BitVec.eq_of_getLsbD_eq
  intro k hk
  have hi : k / w < 128 / w + 1 := Nat.lt_succ_of_le (Nat.div_le_div_right (Nat.le_of_lt hk))
  have hl : ∀ x : V128, (lane w x (k / w)).getLsbD (k % w) = x.getLsbD k := fun x => by
    rw [getLsbD_lane, Nat.div_add_mod, decide_eq_true (Nat.mod_lt _ hw), Bool.true_and]
  rw [← hl a, ← hl b, h (k / w) hi]

theorem ext_lanes32 (a b : V128) (h0 : lane 32 a 0 = lane 32 b 0) (h1 : lane 32 a 1 = lane 32 b 1)
    (h2 : lane 32 a 2 = lane 32 b 2) (h3 : lane 32 a 3 = lane 32 b 3) : a = b := by
  refine ext_lanes 32 (by decide) a b fun i hi => ?_
  match i, hi with
  | 0, _ => exact h0
  | 1, _ => exact h1
  | 2, _ => exact h2
  | 3, _ => exact h3
  | 4, _ => apply BitVec.eq_of_getLsbD_eq; intro k _; simp [BitVec.getLsbD_of_ge]

@[simp] theorem lane_pack32_0 (a b c d : Word) : lane 32 (pack32 a b c d) 0 = a := lane_pack 32 (by decide) (by decide) _ 0 (by decide)
@[simp] theorem lane_pack32_1 (a b c d : Word) : lane 32 (pack32 a b c d) 1 = b := lane_pack 32 (by decide) (by decide) _ 1 (by decide)
@[simp] theorem lane_pack32_2 (a b c d : Word) : lane 32 (pack32 a b c d) 2 = c := lane_pack 32 (by decide) (by decide) _ 2 (by decide)
@[simp] theorem lane_pack32_3 (a b c d : Word) : lane 32 (pack32 a b c d) 3 = d := lane_pack 32 (by decide) (by decide) _ 3 (by decide)

/-- A byte of packed bytes. -/
@[simp] theorem byte_pack8 (l : Nat → Byte) (i : Nat) (hi : i < 16) : byte (pack 8 l) i = l i :=
  lane_pack 8 (by decide) (by decide) l i hi

@[simp] theorem byte_xor (a b : V128) (i : Nat) : byte (a ^^^ b) i = byte a i ^^^ byte b i := by
  simp [byte, lane, BitVec.extractLsb'_xor]

@[simp] theorem lane_xor (w : Nat) (a b : V128) (i : Nat) : lane w (a ^^^ b) i = lane w a i ^^^ lane w b i := by
  simp [lane, BitVec.extractLsb'_xor]

/-- A bit of a gathered mask is the bit gathered there. -/
theorem getLsbD_gather (w : Nat) (f : Nat → Bool) (n k : Nat) (hn : n ≤ w) :
    (gather w f n).getLsbD k = (decide (k < n) && f k) := by
  induction n with
  | zero => simp [gather]
  | succ n ih =>
    rw [gather, BitVec.getLsbD_or, ih (by omega), BitVec.getLsbD_shiftLeft, BitVec.getLsbD_setWidth, BitVec.getLsbD_ofBool]
    by_cases h : k = n
    · subst h
      have hw : 0 < w := by omega
      simp [hw, show k < w by omega]
    · by_cases h2 : k < n
      · simp [h2, show k < n + 1 by omega]
      · simp [h2, show ¬ k < n + 1 by omega, show k - n ≠ 0 by omega]

end Sys2Proof.Machine
end

