-- ==== Sys2Proof/Laws/State.lean ====
section
/-! SUPPORT. What each update of the state does to each field: true by rfl, so that no later proof unfolds a record update. -/

namespace Sys2Proof.Machine

@[simp] theorem State.writeReg_config (s : State) (r : RegIdx) (x : V128) : (s.writeReg r x).config = s.config := rfl
@[simp] theorem State.writeReg_v (s : State) (r : RegIdx) (x : V128) : (s.writeReg r x).v = s.v.set r.toNat x r.isLt := rfl
@[simp] theorem State.writeReg_written (s : State) (r : RegIdx) (x : V128) : (s.writeReg r x).written = s.written.set r.toNat true r.isLt := rfl
@[simp] theorem State.writeReg_status (s : State) (r : RegIdx) (x : V128) : (s.writeReg r x).status = s.status := rfl
@[simp] theorem State.writeReg_illWord (s : State) (r : RegIdx) (x : V128) : (s.writeReg r x).illWord = s.illWord := rfl
@[simp] theorem State.writeReg_unwrittenReads (s : State) (r : RegIdx) (x : V128) : (s.writeReg r x).unwrittenReads = s.unwrittenReads := rfl
@[simp] theorem State.writeReg_freeReads (s : State) (r : RegIdx) (x : V128) : (s.writeReg r x).freeReads = s.freeReads := rfl
@[simp] theorem State.writeReg_pending (s : State) (r : RegIdx) (x : V128) : (s.writeReg r x).pending = s.pending := rfl
@[simp] theorem State.writeReg_response (s : State) (r : RegIdx) (x : V128) : (s.writeReg r x).response = s.response := rfl

@[simp] theorem State.raiseIllegal_config (s : State) (cmd : Word) : (s.raiseIllegal cmd).config = s.config := rfl
@[simp] theorem State.raiseIllegal_v (s : State) (cmd : Word) : (s.raiseIllegal cmd).v = s.v := rfl
@[simp] theorem State.raiseIllegal_written (s : State) (cmd : Word) : (s.raiseIllegal cmd).written = s.written := rfl
@[simp] theorem State.raiseIllegal_status (s : State) (cmd : Word) : (s.raiseIllegal cmd).status = statusWithIll s.status := rfl
@[simp] theorem State.raiseIllegal_illWord (s : State) (cmd : Word) : (s.raiseIllegal cmd).illWord = if s.ill then s.illWord else cmd := rfl
@[simp] theorem State.raiseIllegal_unwrittenReads (s : State) (cmd : Word) : (s.raiseIllegal cmd).unwrittenReads = s.unwrittenReads := rfl
@[simp] theorem State.raiseIllegal_freeReads (s : State) (cmd : Word) : (s.raiseIllegal cmd).freeReads = s.freeReads := rfl
@[simp] theorem State.raiseIllegal_pending (s : State) (cmd : Word) : (s.raiseIllegal cmd).pending = s.pending := rfl
@[simp] theorem State.raiseIllegal_response (s : State) (cmd : Word) : (s.raiseIllegal cmd).response = s.response := rfl

@[simp] theorem State.applyReset_config (s : State) : s.applyReset.config = s.config := rfl
@[simp] theorem State.applyReset_v (s : State) : s.applyReset.v = Vector.replicate 16 0#128 := rfl
@[simp] theorem State.applyReset_written (s : State) : s.applyReset.written = Vector.replicate 16 false := rfl
@[simp] theorem State.applyReset_status (s : State) : s.applyReset.status = 0#32 := rfl
@[simp] theorem State.applyReset_illWord (s : State) : s.applyReset.illWord = 0#32 := rfl
@[simp] theorem State.applyReset_unwrittenReads (s : State) : s.applyReset.unwrittenReads = s.unwrittenReads := rfl
@[simp] theorem State.applyReset_freeReads (s : State) : s.applyReset.freeReads = s.freeReads := rfl
@[simp] theorem State.applyReset_pending (s : State) : s.applyReset.pending = s.pending := rfl
@[simp] theorem State.applyReset_response (s : State) : s.applyReset.response = s.response := rfl

@[simp] theorem State.taking_config (s : State) (rest : List Transaction) : (s.taking rest).config = s.config := rfl
@[simp] theorem State.taking_v (s : State) (rest : List Transaction) : (s.taking rest).v = s.v := rfl
@[simp] theorem State.taking_written (s : State) (rest : List Transaction) : (s.taking rest).written = s.written := rfl
@[simp] theorem State.taking_status (s : State) (rest : List Transaction) : (s.taking rest).status = s.status := rfl
@[simp] theorem State.taking_illWord (s : State) (rest : List Transaction) : (s.taking rest).illWord = s.illWord := rfl
@[simp] theorem State.taking_unwrittenReads (s : State) (rest : List Transaction) : (s.taking rest).unwrittenReads = s.unwrittenReads := rfl
@[simp] theorem State.taking_freeReads (s : State) (rest : List Transaction) : (s.taking rest).freeReads = s.freeReads := rfl
@[simp] theorem State.taking_pending (s : State) (rest : List Transaction) : (s.taking rest).pending = rest := rfl
@[simp] theorem State.taking_response (s : State) (rest : List Transaction) : (s.taking rest).response = none := rfl

@[simp] theorem State.withCommand_config (s : State) (cmd : Word) : (s.withCommand cmd).config = s.config := rfl
@[simp] theorem State.withCommand_v (s : State) (cmd : Word) : (s.withCommand cmd).v = s.v := rfl
@[simp] theorem State.withCommand_written (s : State) (cmd : Word) : (s.withCommand cmd).written = s.written := rfl
@[simp] theorem State.withCommand_status (s : State) (cmd : Word) : (s.withCommand cmd).status = s.status := rfl
@[simp] theorem State.withCommand_illWord (s : State) (cmd : Word) : (s.withCommand cmd).illWord = s.illWord := rfl
@[simp] theorem State.withCommand_unwrittenReads (s : State) (cmd : Word) : (s.withCommand cmd).unwrittenReads = s.unwrittenReads := rfl
@[simp] theorem State.withCommand_freeReads (s : State) (cmd : Word) : (s.withCommand cmd).freeReads = s.freeReads := rfl
@[simp] theorem State.withCommand_pending (s : State) (cmd : Word) : (s.withCommand cmd).pending = .issue cmd :: s.pending := rfl
@[simp] theorem State.withCommand_response (s : State) (cmd : Word) : (s.withCommand cmd).response = s.response := rfl

@[simp] theorem State.reset_config : State.reset.config = Config.asBuilt := rfl
@[simp] theorem State.reset_v : State.reset.v = Vector.replicate 16 0#128 := rfl
@[simp] theorem State.reset_written : State.reset.written = Vector.replicate 16 false := rfl
@[simp] theorem State.reset_status : State.reset.status = 0#32 := rfl
@[simp] theorem State.reset_illWord : State.reset.illWord = 0#32 := rfl
@[simp] theorem State.reset_unwrittenReads : State.reset.unwrittenReads = Vector.replicate 16 false := rfl
@[simp] theorem State.reset_freeReads : State.reset.freeReads = 0 := rfl
@[simp] theorem State.reset_pending : State.reset.pending = [] := rfl
@[simp] theorem State.reset_response : State.reset.response = none := rfl

end Sys2Proof.Machine
end

