-- ==== Sys2Proof/Laws/Units.lean ====
section
/-! SUPPORT. What each functional unit computes, and that every strategy of a unit computes it (00 R9). -/

namespace Sys2Proof.Machine

/-! ## The Permutation Dispatcher (41 R102) -/

/-- An indexed set changes its lane and no other. -/
theorem lane_setLane (v : V128) (i j : Nat) (x : Word) (hi : i < 4) :
    lane 32 (setLane 32 v i x) j = if i = j then x else lane 32 v j := by
  apply BitVec.eq_of_getLsbD_eq
  intro k hk
  simp only [getLsbD_lane, setLane, BitVec.getLsbD_or, BitVec.getLsbD_and, BitVec.getLsbD_not, BitVec.getLsbD_shiftLeft,
    BitVec.getLsbD_setWidth, BitVec.getLsbD_allOnes, decide_eq_true hk, Bool.true_and]
  by_cases h : i = j
  · subst h
    simp [hk, show 32 * i + k < 128 by omega, show k < 128 by omega]
  · by_cases h2 : 32 * i ≤ 32 * j + k
    · simp [h, hk, show ¬ (32 * j + k < 32 * i) by omega, show ¬ (32 * j + k - 32 * i < 32) by omega,
        BitVec.getLsbD_of_ge x (32 * j + k - 32 * i) (by omega)]
      intro hb; exact BitVec.lt_of_getLsbD hb
    · simp [h, hk, show 32 * j + k < 32 * i by omega]
      intro hb; exact BitVec.lt_of_getLsbD hb

theorem shufGeneric_eq (a b : V128) (imm8 : Byte) : shufGeneric a b imm8 = shuf a b imm8 := by
  apply ext_lanes32 <;> simp [shufGeneric, shuf, lane_setLane]

@[simp] theorem shufBy_eq (impl : ShufImpl) (a b : V128) (imm8 : Byte) : shufBy impl a b imm8 = shuf a b imm8 := by
  cases impl
  · rfl
  · exact shufGeneric_eq a b imm8
  · exact shufGeneric_eq a b imm8

/-! ## The Mask Extractor (42 R112) -/

theorem getLsbD_movmskb (a : V128) (i : Nat) : (movmskb a).getLsbD i = (decide (i < 16) && a.getLsbD (8 * i + 7)) := by
  rw [movmskb, getLsbD_gather 16 _ 16 i (Nat.le_refl _), getLsbD_lane]; rfl

theorem getLsbD_movmskps (a : V128) (i : Nat) : (movmskps a).getLsbD i = (decide (i < 4) && a.getLsbD (32 * i + 31)) := by
  rw [movmskps, getLsbD_gather 4 _ 4 i (Nat.le_refl _), getLsbD_lane]; rfl

/-- A lane of twice the width is two lanes, the higher-numbered one on top (20 R48). -/
theorem lane_double (w : Nat) (v : V128) (i : Nat) :
    lane (w + w) v i = lane w v (2 * i + 1) ++ lane w v (2 * i) := by
  apply BitVec.eq_of_getLsbD_eq
  intro k hk
  rw [BitVec.getLsbD_append, getLsbD_lane, getLsbD_lane, getLsbD_lane]
  have e0 : w * (2 * i) + k = (w + w) * i + k := by ring
  by_cases h : k < w
  · simp [h, hk, e0]
  · have e1 : w * (2 * i + 1) + (k - w) = (w + w) * i + k := by
      have : w + (k - w) = k := by omega
      calc w * (2 * i + 1) + (k - w) = (w + w) * i + (w + (k - w)) := by ring
        _ = _ := by rw [this]
    simp [h, hk, e1, show k - w < w by omega]

/-- One lane of a narrowing step. -/
theorem lane_mergeStep (w k : Nat) (hw : 0 < w) (hd : (w + w) ∣ 128) (t : V128) (i : Nat) (hi : i < 128 / (w + w)) :
    lane (w + w) (mergeStep (w + w) k t) i =
      (lane w t (2 * i + 1) ++ lane w t (2 * i)) + ((lane w t (2 * i + 1) ++ lane w t (2 * i)) >>> k) := by
  rw [mergeStep, lane_pack (w + w) (by omega) hd _ i hi, lane_double]

/-- The byte that holds one sign bit. -/
theorem byte_sign (b : Byte) : b >>> 7 = (BitVec.ofBool (b.getLsbD 7)).setWidth 8 := by
  revert b; decide +kernel

/-- The narrowing steps of 42 R113 on the eight bytes of one half, each byte one sign bit. -/
def mergeHalf (b0 b1 b2 b3 b4 b5 b6 b7 : Byte) : Half :=
  let m16 (h l : Byte) : BitVec 16 := (h ++ l) + ((h ++ l) >>> 7)
  let m32 (h l : BitVec 16) : Word := (h ++ l) + ((h ++ l) >>> 14)
  let m64 (h l : Word) : Half := (h ++ l) + ((h ++ l) >>> 28)
  m64 (m32 (m16 b7 b6) (m16 b5 b4)) (m32 (m16 b3 b2) (m16 b1 b0))

theorem lane_tree (t : V128) (i : Nat) (hi : i < 2) :
    lane 64 (mergeStep 64 28 (mergeStep 32 14 (mergeStep 16 7 t))) i =
      mergeHalf (byte t (8 * i)) (byte t (8 * i + 1)) (byte t (8 * i + 2)) (byte t (8 * i + 3))
        (byte t (8 * i + 4)) (byte t (8 * i + 5)) (byte t (8 * i + 6)) (byte t (8 * i + 7)) := by
  have h16 := fun (i : Nat) (hi : i < 8) => lane_mergeStep 8 7 (by decide) (by decide) t i hi
  have h32 := fun (i : Nat) (hi : i < 4) => lane_mergeStep 16 14 (by decide) (by decide) (mergeStep 16 7 t) i hi
  have h64 := lane_mergeStep 32 28 (by decide) (by decide) (mergeStep 32 14 (mergeStep 16 7 t)) i hi
  match i, hi with
  | 0, _ =>
    refine h64.trans ?_
    rw [h32 (2 * 0 + 1) (by decide), h32 (2 * 0) (by decide), h16 _ (by decide), h16 _ (by decide), h16 _ (by decide), h16 _ (by decide)]
    rfl
  | 1, _ =>
    refine h64.trans ?_
    rw [h32 (2 * 1 + 1) (by decide), h32 (2 * 1) (by decide), h16 _ (by decide), h16 _ (by decide), h16 _ (by decide), h16 _ (by decide)]
    rfl

/-- The eight sign bits of a half arrive in its byte 0, in order (42 R113): a fact of eight bits. -/
theorem mergeHalf_signs (b : Byte) :
    (mergeHalf ((BitVec.ofBool (b.getLsbD 0)).setWidth 8) ((BitVec.ofBool (b.getLsbD 1)).setWidth 8)
      ((BitVec.ofBool (b.getLsbD 2)).setWidth 8) ((BitVec.ofBool (b.getLsbD 3)).setWidth 8)
      ((BitVec.ofBool (b.getLsbD 4)).setWidth 8) ((BitVec.ofBool (b.getLsbD 5)).setWidth 8)
      ((BitVec.ofBool (b.getLsbD 6)).setWidth 8) ((BitVec.ofBool (b.getLsbD 7)).setWidth 8)).extractLsb' 0 8 = b := by
  revert b; decide +kernel

/-- Byte `8i` of the tree's last step holds mask bits `8i + 7 .. 8i`. -/
theorem tree_byte (a : V128) (i : Nat) (hi : i < 2) :
    byte (mergeStep 64 28 (mergeStep 32 14 (mergeStep 16 7 (pack 8 (fun i => lane 8 a i >>> 7))))) (8 * i) =
      (movmskb a).extractLsb' (8 * i) 8 := by
  have hb : ∀ t : V128, byte t (8 * i) = (lane 64 t i).extractLsb' 0 8 := fun t => by
    apply BitVec.eq_of_getLsbD_eq
    intro k hk
    have e : 8 * (8 * i) + k = 64 * i + k := by ring
    simp [byte, hk, e, show k < 64 by omega]
  have hs : ∀ j, j < 8 → byte (pack 8 (fun i => lane 8 a i >>> 7)) (8 * i + j) =
      (BitVec.ofBool (((movmskb a).extractLsb' (8 * i) 8).getLsbD j)).setWidth 8 := fun j hj => by
    rw [byte_pack8 _ _ (by omega), byte_sign, BitVec.getLsbD_extractLsb', getLsbD_movmskb, getLsbD_lane]
    simp [hj, show 8 * i + j < 16 by omega]
  rw [hb, lane_tree _ i hi, show 8 * i = 8 * i + 0 from rfl, hs 0 (by decide), hs 1 (by decide), hs 2 (by decide),
    hs 3 (by decide), hs 4 (by decide), hs 5 (by decide), hs 6 (by decide), hs 7 (by decide)]
  exact mergeHalf_signs _

theorem movmskbTree_eq (a : V128) : movmskbTree a = movmskb a := by
  have h0 := tree_byte a 0 (by decide)
  have h1 := tree_byte a 1 (by decide)
  rw [movmskbTree]
  simp only [Nat.mul_one, Nat.mul_zero] at h0 h1
  rw [h0, h1]
  apply BitVec.eq_of_getLsbD_eq
  intro k hk
  rw [BitVec.getLsbD_append, BitVec.getLsbD_extractLsb', BitVec.getLsbD_extractLsb']
  by_cases h : k < 8
  · simp [h]
  · simp [h, show k - 8 < 8 by omega, show 8 + (k - 8) = k by omega]

@[simp] theorem movmskbBy_eq (impl : MovmskImpl) (a : V128) : movmskbBy impl a = movmskb a := by
  cases impl
  · exact movmskbTree_eq a
  · rfl

/-- The one narrowing step of 42 R114 on the two sign bits of one half. -/
theorem merge_signs (h l : Bool) :
    ((((BitVec.ofBool h).setWidth 32 ++ (BitVec.ofBool l).setWidth 32 : Half) +
      (((BitVec.ofBool h).setWidth 32 ++ (BitVec.ofBool l).setWidth 32 : Half) >>> 31)).extractLsb' 0 2) =
      BitVec.ofBool h ++ BitVec.ofBool l := by
  revert h l; decide +kernel

theorem word_sign (x : Word) : x >>> 31 = (BitVec.ofBool (x.getLsbD 31)).setWidth 32 := by
  apply BitVec.eq_of_getLsbD_eq
  intro k hk
  rw [BitVec.getLsbD_ushiftRight, BitVec.getLsbD_setWidth, BitVec.getLsbD_ofBool]
  by_cases h : k = 0
  · subst h; simp
  · simp [h, BitVec.getLsbD_of_ge x (31 + k) (by omega)]

theorem movmskpsTree_eq (a : V128) : movmskpsTree a = movmskps a := by
  have hs : ∀ j, j < 4 → lane 32 (pack 32 (fun i => lane 32 a i >>> 31)) j =
      (BitVec.ofBool ((movmskps a).getLsbD j)).setWidth 32 := fun j hj => by
    rw [lane_pack 32 (by decide) (by decide) _ j hj, word_sign, getLsbD_movmskps, getLsbD_lane]
    simp [hj]
  have hm := fun (i : Nat) (hi : i < 2) => lane_mergeStep 32 31 (by decide) (by decide) (pack 32 (fun i => lane 32 a i >>> 31)) i hi
  have h0 := hm 0 (by decide)
  have h1 := hm 1 (by decide)
  rw [hs _ (by decide), hs _ (by decide)] at h0 h1
  rw [movmskpsTree]
  simp only [show (64 : Nat) = 32 + 32 from rfl]
  rw [h0, h1, merge_signs, merge_signs]
  generalize movmskps a = m
  revert m; decide +kernel

@[simp] theorem movmskpsBy_eq (impl : MovmskImpl) (a : V128) : movmskpsBy impl a = movmskps a := by
  cases impl
  · exact movmskpsTree_eq a
  · rfl

/-! ## The Carry-less Multiplier (43 R124) -/

@[simp] theorem clmulBy_eq (impl : ClmulImpl) (p q : Half) : clmulBy impl p q = clmul64 p q := by
  cases impl <;> rfl

/-! ## The Block-Cipher Round Emulator (44 R139) -/

/-- The source byte of `ShiftRows` is a byte of the state. -/
theorem srTable_lt (i : Nat) (hi : i < 16) : srTable.getD i 0 < 16 := by
  revert i; decide

theorem byte_shiftRows (s : V128) (i : Nat) (hi : i < 16) : byte (shiftRows s) i = byte s (srTable.getD i 0) :=
  byte_pack8 _ i hi

theorem byte_subBytes (s : V128) (i : Nat) (hi : i < 16) : byte (subBytes s) i = sbox (byte s i) :=
  byte_pack8 _ i hi

theorem byte_mixColumns (s : V128) (i : Nat) (hi : i < 16) :
    byte (mixColumns s) i =
      mixRow (byte s (4 * (i / 4))) (byte s (4 * (i / 4) + 1)) (byte s (4 * (i / 4) + 2)) (byte s (4 * (i / 4) + 3)) (i % 4) :=
  byte_pack8 _ i hi

/-- A substituted and shifted byte. -/
theorem byte_subShift (s : V128) (i : Nat) (hi : i < 16) :
    byte (subBytes (shiftRows s)) i = sbox (byte s (srTable.getD i 0)) := by
  rw [byte_subBytes _ _ hi, byte_shiftRows _ _ hi]

/-- Two registers with the same bytes are the same. -/
theorem ext_bytes (a b : V128) (h : ∀ i, i < 16 → byte a i = byte b i) : a = b := by
  refine ext_lanes 8 (by decide) a b fun i hi => ?_
  by_cases h16 : i < 16
  · exact h i h16
  · apply BitVec.eq_of_getLsbD_eq
    intro k _
    simp [BitVec.getLsbD_of_ge, show 128 ≤ 8 * i + k by omega]

theorem hwStep_eq (s : V128) : hwStep s = subBytes (shiftRows s) := by
  simp [hwStep, addRoundKey]

/-- Byte `4c + r` is byte `r` of lane `c` (44 R132). -/
theorem byte_eq_lane (v : V128) (c r : Nat) (hr : r < 4) : byte v (4 * c + r) = (lane 32 v c).extractLsb' (8 * r) 8 := by
  apply BitVec.eq_of_getLsbD_eq
  intro k hk
  have e : 8 * (4 * c + r) + k = 32 * c + (8 * r + k) := by ring
  simp [byte, hk, e, show 8 * r + k < 32 by omega]

/-- The bytes of a word written high byte first. -/
theorem extract_append4 (b3 b2 b1 b0 : Byte) (r : Nat) (hr : r < 4) :
    (b3 ++ b2 ++ b1 ++ b0 : Word).extractLsb' (8 * r) 8 = (fun | 0 => b0 | 1 => b1 | 2 => b2 | _ => b3 : Nat → Byte) r := by
  apply BitVec.eq_of_getLsbD_eq
  intro k hk
  rw [BitVec.getLsbD_extractLsb', decide_eq_true hk, Bool.true_and, BitVec.getLsbD_append, BitVec.getLsbD_append, BitVec.getLsbD_append]
  match r, hr with
  | 0, _ => simp [hk]
  | 1, _ => simp [hk, show ¬ (8 + k < 8) by omega]
  | 2, _ => simp [hk, show ¬ (16 + k < 8) by omega, show ¬ (16 + k - 8 < 8) by omega, show 16 + k - 8 - 8 = k by omega]
  | 3, _ => simp [show ¬ (24 + k < 8) by omega, show ¬ (24 + k - 8 < 8) by omega, show ¬ (24 + k - 8 - 8 < 8) by omega, show 24 + k - 8 - 8 - 8 = k by omega]

/-- The T-tables fold `SubBytes`, `MixColumns` and `ShiftRows` into one lookup a byte (44 R133). -/
theorem tColumns_eq (s : V128) : pack 32 (tColumn s) = mixColumns (subBytes (shiftRows s)) := by
  refine ext_bytes _ _ fun i hi => ?_
  have hc : i / 4 < 4 := by omega
  have hr : i % 4 < 4 := Nat.mod_lt _ (by decide)
  rw [← Nat.div_add_mod i 4, byte_eq_lane _ _ _ hr, lane_pack 32 (by decide) (by decide) _ _ hc,
    byte_mixColumns _ _ (by omega)]
  generalize i / 4 = c at hc
  generalize i % 4 = r at hr
  rw [show (4 * c + r) / 4 = c by omega, show (4 * c + r) % 4 = r by omega,
    byte_subShift _ _ (by omega), byte_subShift _ _ (by omega), byte_subShift _ _ (by omega), byte_subShift _ _ (by omega)]
  simp only [tColumn, tTable0, tTable1, tTable2, tTable3, BitVec.extractLsb'_xor, extract_append4 _ _ _ _ r hr]
  match c, hc, r, hr with
  | 0, _, 0, _ | 0, _, 1, _ | 0, _, 2, _ | 0, _, 3, _ | 1, _, 0, _ | 1, _, 1, _ | 1, _, 2, _ | 1, _, 3, _
  | 2, _, 0, _ | 2, _, 1, _ | 2, _, 2, _ | 2, _, 3, _ | 3, _, 0, _ | 3, _, 1, _ | 3, _, 2, _ | 3, _, 3, _ => rfl

@[simp] theorem aesRoundBy_eq (impl : AesImpl) (s k : V128) : aesRoundBy impl s k = aesRound s k := by
  cases impl
  · rw [aesRoundBy, hwStep_eq]; rfl
  · rfl
  · rw [aesRoundBy, tColumns_eq]; rfl

@[simp] theorem aesLastRoundBy_eq (impl : AesImpl) (s k : V128) : aesLastRoundBy impl s k = aesLastRound s k := by
  cases impl
  · rw [aesLastRoundBy, hwStep_eq]; rfl
  · rfl
  · rfl

/-! ## The Rounding/Conversion Helper (45 R158) -/

@[simp] theorem cvtBy_eq (impl : CvtImpl) (cvtInvalid f : Word) : cvtBy impl cvtInvalid f = cvtRne cvtInvalid f := by
  cases impl <;> rfl

end Sys2Proof.Machine
end

