-- ==== Sys2Proof/Laws/Ops.lean ====
section
/-! SUPPORT. What each shared operation can do, said once: registers, the record of unwritten reads, the completion of a
command, and every command as such a completion. -/

namespace Sys2Proof.Machine

theorem cell_writeReg (s : State) (r r' : RegIdx) (x : V128) :
    (s.writeReg r x).cell r' = if r = r' then x else s.cell r' := by
  simp [State.cell, State.writeReg, Vector.getElem_set, BitVec.toNat_inj]

theorem isWritten_writeReg (s : State) (r r' : RegIdx) (x : V128) :
    (s.writeReg r x).isWritten r' = if r = r' then true else s.isWritten r' := by
  simp [State.isWritten, State.writeReg, Vector.getElem_set, BitVec.toNat_inj]

/-- A record after marking some registers. -/
theorem getElem_markReads (record : Vector Bool 16) (rs : List RegIdx) (r : RegIdx) :
    (markReads record rs)[r.toNat]'r.isLt = (record[r.toNat]'r.isLt || decide (r ∈ rs)) := by
  induction rs generalizing record with
  | nil => simp [markReads]
  | cons q rs ih =>
    rw [markReads, ih, Vector.getElem_set]
    by_cases h : q = r
    · simp [h]
    · simp [h, BitVec.toNat_inj, show r ≠ q from fun e => h e.symm]

/-- What recording the reads of `rs` can do: nothing if all are written, else extend the record and advance the count. -/
theorem recordReads_cases (s : State) (rs : List RegIdx) :
    (s.unwrittenOf rs = [] ∧ s.recordReads rs = s) ∨
    (s.unwrittenOf rs ≠ [] ∧ s.recordReads rs =
      { s with unwrittenReads := markReads s.unwrittenReads (s.unwrittenOf rs), freeReads := s.freeReads + 1 }) := by
  cases h : s.unwrittenOf rs with
  | nil => exact .inl ⟨rfl, by rw [State.recordReads, h]⟩
  | cons r more => exact .inr ⟨List.cons_ne_nil _ _, by rw [State.recordReads, h]⟩

theorem recordReads_eq (s : State) (rs : List RegIdx) :
    s.recordReads rs =
      { s with unwrittenReads := (s.recordReads rs).unwrittenReads, freeReads := (s.recordReads rs).freeReads } := by
  rcases recordReads_cases s rs with ⟨_, h⟩ | ⟨_, h⟩ <;> rw [h]

@[simp] theorem recordReads_config (s : State) (rs : List RegIdx) : (s.recordReads rs).config = s.config := by
  rw [recordReads_eq]
@[simp] theorem recordReads_v (s : State) (rs : List RegIdx) : (s.recordReads rs).v = s.v := by
  rw [recordReads_eq]
@[simp] theorem recordReads_written (s : State) (rs : List RegIdx) : (s.recordReads rs).written = s.written := by
  rw [recordReads_eq]
@[simp] theorem recordReads_status (s : State) (rs : List RegIdx) : (s.recordReads rs).status = s.status := by
  rw [recordReads_eq]
@[simp] theorem recordReads_illWord (s : State) (rs : List RegIdx) : (s.recordReads rs).illWord = s.illWord := by
  rw [recordReads_eq]
@[simp] theorem recordReads_pending (s : State) (rs : List RegIdx) : (s.recordReads rs).pending = s.pending := by
  rw [recordReads_eq]
@[simp] theorem recordReads_response (s : State) (rs : List RegIdx) : (s.recordReads rs).response = s.response := by
  rw [recordReads_eq]
@[simp] theorem recordReads_cell (s : State) (rs : List RegIdx) (r : RegIdx) : (s.recordReads rs).cell r = s.cell r := by
  simp [State.cell]
@[simp] theorem recordReads_isWritten (s : State) (rs : List RegIdx) (r : RegIdx) :
    (s.recordReads rs).isWritten r = s.isWritten r := by
  simp [State.isWritten]

/-- The registers of `rs` that are unwritten, as a set. -/
theorem mem_unwrittenOf (s : State) (rs : List RegIdx) (r : RegIdx) :
    r ∈ s.unwrittenOf rs ↔ r ∈ rs ∧ s.isWritten r = false := by
  simp [State.unwrittenOf]

/-- The record gains exactly the unwritten registers that were read (60 R172). -/
theorem recordReads_unwrittenRead (s : State) (rs : List RegIdx) (r : RegIdx) :
    (s.recordReads rs).unwrittenRead r = (s.unwrittenRead r || decide (r ∈ rs ∧ s.isWritten r = false)) := by
  rcases recordReads_cases s rs with ⟨hn, h⟩ | ⟨_, h⟩
  · have hno : ¬ (r ∈ rs ∧ s.isWritten r = false) := by rw [← mem_unwrittenOf, hn]; exact List.not_mem_nil
    rw [h, decide_eq_false hno, Bool.or_false]
  · rw [h, State.unwrittenRead, getElem_markReads, decide_eq_decide.mpr (mem_unwrittenOf s rs r)]; rfl

/-- Reading only written registers records nothing. -/
theorem recordReads_of_written (s : State) (rs : List RegIdx) (h : ∀ r ∈ rs, s.isWritten r = true) :
    s.recordReads rs = s := by
  rcases recordReads_cases s rs with ⟨_, e⟩ | ⟨hn, _⟩
  · exact e
  · exact absurd (List.eq_nil_iff_forall_not_mem.mpr fun r hr => by
      have := (mem_unwrittenOf s rs r).mp hr; simp [h r this.1] at this) hn

/-- The function a command computes of its sources: the rule of its opcode. -/
def resultOf (cvtInvalid : Word) (x : RegIdx → V128) : Instr → V128
  | .shuf _ va vb imm8 => shuf (x va) (x vb) imm8
  | .movmskb _ va => (movmskb (x va)).setWidth 128
  | .movmskps _ va => (movmskps (x va)).setWidth 128
  | .clmul _ va vb imm8 => clmul64 (halfOf (imm8.getLsbD 0) (x va)) (halfOf (imm8.getLsbD 4) (x vb))
  | .aesenc _ va vb => aesRound (x va) (x vb)
  | .aesenclast _ va vb => aesLastRound (x va) (x vb)
  | .aeskeygen _ va imm8 => aesKeyAssist (x va) imm8
  | .cvtps2dq _ va => pack 32 (fun i => cvtRne cvtInvalid (lane 32 (x va) i))
  | .cvtss2si _ va => (cvtRne cvtInvalid (lane 32 (x va) 0)).setWidth 128

/-- Every command reads its sources, computes its function of them and completes; no strategy shows (00 R9). -/
theorem exec_eq (i : Instr) (s : State) :
    exec i s = .next ((s.recordReads (sources i)).writeReg (dest i) (resultOf s.config.cvtInvalid s.readReg i)) := by
  cases i <;>
    simp [exec, execShuf, execMovmskb, execMovmskps, execClmul, execAesenc, execAesenclast, execAeskeygen, execCvtps2dq,
      execCvtss2si, State.complete, sources, dest, resultOf]

/-- What every command leaves in its destination. -/
theorem exec_dest (i : Instr) (s t : State) (h : exec i s = .next t) :
    t.cell (dest i) = resultOf s.config.cvtInvalid s.readReg i ∧ t.isWritten (dest i) = true := by
  rw [exec_eq] at h
  cases h
  exact ⟨by rw [cell_writeReg, if_pos rfl], by rw [isWritten_writeReg, if_pos rfl]⟩

end Sys2Proof.Machine
end

