-- ==== Sys2Proof/Laws/PerInstr.lean ====
section
/-! SUPPORT. Statements for all commands, one lemma a constructor. -/

namespace Sys2Proof.Laws.EncodesLegal

/-- The word of a command carries the command's opcode, a zero `rsv`, and is legal (30 R66, R72, R74). -/
def Statement (i : Instr) : Prop :=
  opField (encode i) = opcode i ∧ rsvField (encode i) = 0#4 ∧ legal (encode i) = true

theorem shuf (vd va vb : RegIdx) (imm8 : Byte) : Statement (.shuf vd va vb imm8) := by
  simp [Statement, legal, opField_encode, rsvField_encode, opcode]

theorem movmskb (vd va : RegIdx) : Statement (.movmskb vd va) := by
  simp [Statement, legal, opField_encode, rsvField_encode, opcode]

theorem movmskps (vd va : RegIdx) : Statement (.movmskps vd va) := by
  simp [Statement, legal, opField_encode, rsvField_encode, opcode]

theorem clmul (vd va vb : RegIdx) (imm8 : Byte) : Statement (.clmul vd va vb imm8) := by
  simp [Statement, legal, opField_encode, rsvField_encode, opcode]

theorem aesenc (vd va vb : RegIdx) : Statement (.aesenc vd va vb) := by
  simp [Statement, legal, opField_encode, rsvField_encode, opcode]

theorem aesenclast (vd va vb : RegIdx) : Statement (.aesenclast vd va vb) := by
  simp [Statement, legal, opField_encode, rsvField_encode, opcode]

theorem aeskeygen (vd va : RegIdx) (imm8 : Byte) : Statement (.aeskeygen vd va imm8) := by
  simp [Statement, legal, opField_encode, rsvField_encode, opcode]

theorem cvtps2dq (vd va : RegIdx) : Statement (.cvtps2dq vd va) := by
  simp [Statement, legal, opField_encode, rsvField_encode, opcode]

theorem cvtss2si (vd va : RegIdx) : Statement (.cvtss2si vd va) := by
  simp [Statement, legal, opField_encode, rsvField_encode, opcode]

end Sys2Proof.Laws.EncodesLegal
end

