-- ==== Sys2Proof/Laws/Step.lean ====
section
/-! SUPPORT. What a step can do, said once: idle, or one of the host's transactions. -/

namespace Sys2Proof.Machine

/-- The legal words are those the decoder gives a command for. -/
theorem legal_iff_command (cmd : Word) : legal cmd = true ↔ ∃ i, decode cmd = .command i := by
  simp only [legal, decode]
  constructor
  · intro h
    simp only [Bool.and_eq_true, decide_eq_true_eq] at h
    obtain ⟨⟨h0, h1⟩, h2⟩ := h
    simp only [h0, ne_eq, not_true, if_false]
    generalize (opField cmd).toNat = n at *
    interval_cases n <;> exact ⟨_, rfl⟩
  · rintro ⟨i, h⟩
    split at h
    · cases h
    · rename_i h0
      simp only [ne_eq, not_not] at h0
      split at h <;> simp_all

theorem illegal_iff (cmd : Word) : legal cmd = false ↔ ∃ e, decode cmd = .illegal e := by
  rw [← Bool.not_eq_true, legal_iff_command]
  cases decode cmd <;> simp

theorem step_of_pending {s : State} {tr : Transaction} {rest : List Transaction} (h : s.pending = tr :: rest) :
    step s = perform tr (s.taking rest) := by
  rw [step, nextStep, h]

/-- What a step can do. -/
theorem step_cases {s t : State} (h : step s = .next t) :
    (s.pending = [] ∧ t = s) ∨
    (∃ rest, s.pending = .reset :: rest ∧ t = (s.taking rest).applyReset) ∨
    (∃ rest i x, s.pending = .writeVec i x :: rest ∧ t = (s.taking rest).writeReg i x) ∨
    (∃ rest i, s.pending = .readVec i :: rest ∧
      t = { (s.taking rest).recordReads [i] with response := some (.vec ((s.taking rest).readReg i)) }) ∨
    (∃ rest cmd i, s.pending = .issue cmd :: rest ∧ decode cmd = .command i ∧
      t = ((s.taking rest).recordReads (sources i)).writeReg (dest i) (resultOf s.config.cvtInvalid (s.taking rest).readReg i)) ∨
    (∃ rest cmd, s.pending = .issue cmd :: rest ∧ legal cmd = false ∧ t = (s.taking rest).raiseIllegal cmd) ∨
    (∃ rest, s.pending = .readStatus :: rest ∧ t = { s.taking rest with response := some (.status s.statusWord) }) ∨
    (∃ rest, s.pending = .readIllWord :: rest ∧ t = { s.taking rest with response := some (.illWord s.illWord) }) := by
  cases hp : s.pending with
  | nil =>
    rw [step, nextStep, hp] at h
    cases h
    exact .inl ⟨rfl, rfl⟩
  | cons tr rest =>
    rw [step_of_pending hp] at h
    right
    cases tr with
    | reset => cases h; exact .inl ⟨rest, rfl, rfl⟩
    | writeVec i x => cases h; exact .inr (.inl ⟨rest, i, x, rfl, rfl⟩)
    | readVec i => cases h; exact .inr (.inr (.inl ⟨rest, i, rfl, rfl⟩))
    | issue cmd =>
      simp only [perform, performIssue] at h
      cases hd : decode cmd with
      | command i =>
        simp only [hd, exec_eq] at h
        cases h
        exact .inr (.inr (.inr (.inl ⟨rest, cmd, i, rfl, hd, rfl⟩)))
      | illegal e =>
        simp only [hd] at h
        cases h
        exact .inr (.inr (.inr (.inr (.inl ⟨rest, cmd, rfl, (illegal_iff cmd).mpr ⟨e, hd⟩, rfl⟩))))
    | readStatus => cases h; exact .inr (.inr (.inr (.inr (.inr (.inl ⟨rest, rfl, rfl⟩)))))
    | readIllWord => cases h; exact .inr (.inr (.inr (.inr (.inr (.inr ⟨rest, rfl, rfl⟩)))))

/-- A run continues from the state its first step answers. -/
theorem run_succ {s t : State} (h : step s = .next t) (n : Nat) : core.run (n + 1) s = core.run n t := by
  have h' : core.step s = .next t := h
  simp only [Host.Core.run, h']

end Sys2Proof.Machine
end

