-- ==== Sys2Proof/Tests/Slice0.lean ====
section
/-! SUPPORT. Tests, each about one step, with results taken from spec/ (95_test_vectors.md unless another file is named), and the
witnesses of the obligations' hypotheses. -/

namespace Sys2Proof.Tests
open Sys2Proof.Machine

/-- The reset state with v0 and v1 written. -/
def loaded (a b : V128) : State := (State.reset.writeReg 0 a).writeReg 1 b

/-- A state in which the host has these transactions to give. -/
def withHost (s : State) (ts : List Transaction) : State := { s with pending := ts }

/-- `exec` answers a next state with `p`. -/
def after (i : Instr) (s : State) (p : State → Bool) : Bool :=
  match exec i s with
  | .next t => p t
  | _ => false

/-- `step` answers a next state with `p`. -/
def stepped (s : State) (p : State → Bool) : Bool :=
  match step s with
  | .next t => p t
  | _ => false

/-! ## Well-formedness: a term each check refuses (30 R77, R78, R74) -/

theorem test_wf_accepts : (AsmLine.shuf 2 0 1 0x1B).wellFormed = true := by decide
theorem test_wf_register_16 : (AsmLine.movmskb 16 0).regsInRange = false ∧ (AsmLine.movmskb 16 0).wellFormed = false := by decide
theorem test_wf_immediate_256 : (AsmLine.clmul 0 1 2 256).immInRange = false ∧ (AsmLine.clmul 0 1 2 256).wellFormed = false := by decide
theorem test_wf_lane_4 : (AsmLine.vbcast 0 1 4).laneInRange = false ∧ (AsmLine.vbcast 0 1 4).wellFormed = false := by decide
theorem test_legal_refuses : legal 0x00000000#32 = false ∧ legal 0x0000000A#32 = false ∧ legal 0x00100001#32 = false := by decide

/-! ## Decoding (30 R79, 95 L2.3) -/

theorem test_decode_shuf : decode 0x1B010201#32 = .command (.shuf 2 0 1 0x1B) := by decide
theorem test_decode_pshufd : decode 0x39033301#32 = .command (.shuf 3 3 3 0x39) := by decide
theorem test_decode_movmskb_unused : decode 0xFF0F5402#32 = .command (.movmskb 4 5) := by decide
theorem test_decode_movmskps : decode 0x00001003#32 = .command (.movmskps 0 1) := by decide
theorem test_decode_clmul : decode 0x11087604#32 = .command (.clmul 6 7 8 0x11) := by decide
theorem test_decode_aesenc : decode 0x00010005#32 = .command (.aesenc 0 0 1) := by decide
theorem test_decode_aesenclast : decode 0x000DEF06#32 = .command (.aesenclast 15 14 13) := by decide
theorem test_decode_aeskeygen : decode 0x36002107#32 = .command (.aeskeygen 1 2 0x36) := by decide
theorem test_decode_aeskeygen_unused : decode 0x0005FF07#32 = .command (.aeskeygen 15 15 0x00) := by decide
theorem test_decode_cvtps2dq : decode 0x0000A908#32 = .command (.cvtps2dq 9 10) := by decide
theorem test_decode_cvtss2si : decode 0x0000CB09#32 = .command (.cvtss2si 11 12) := by decide
theorem test_decode_rsv_first : decode 0x00F00000#32 = .illegal .reservedField := by decide
theorem test_decode_opcode_ff : decode 0x000000FF#32 = .illegal .unassignedOpcode := by decide
theorem test_decode_rsv_of_movmskb : decode 0xFFFF5402#32 = .illegal .reservedField := by decide
theorem test_encode_shuf : encode (.shuf 2 0 1 0x1B) = 0x1B010201#32 := by decide
theorem test_encode_cvtss2si : encode (.cvtss2si 11 12) = 0x0000CB09#32 := by decide
theorem test_bytes_little_endian : bytesOfCmd 0x1B010201#32 = [0x01, 0x02, 0x01, 0x1B] := by decide
theorem test_truncated : decodeBytes [0x01, 0x02, 0x01] = (.illegal .truncated, [0x01, 0x02, 0x01]) := by decide

/-! ## Assembler (30 R77-R79, 95 L3) -/

theorem test_asm_text : assembleText "PSHUFD v3, v3, 0x39" = some 0x39033301#32 := by decide +kernel
theorem test_asm_decimal : assembleText "AESKEYGEN v1, v2, 54" = some 0x36002107#32 := by decide +kernel
theorem test_asm_out_of_range : assembleText "SHUF v2, v0, v1, 256" = none := by decide +kernel
theorem test_asm_vbcast : assembleWord (.vbcast 7 2 3) = some 0xFF022701#32 := by decide
theorem test_asm_clmulhqlq : assembleWord (.clmulhqlq 3 0 1) = some 0x01010304#32 := by decide
theorem test_asm_render : render (.pshufd 3 3 57) = "PSHUFD v3, v3, 57" := by decide +kernel

/-! ## SHUF (41 R100, R195) -/

theorem test_shuf_reverse :
    after (.shuf 2 0 1 0x1B) (loaded 0x33333333222222221111111100000000#128 0x77777777666666665555555544444444#128)
      (fun t => t.cell 2 == 0x44444444555555552222222233333333#128 && t.isWritten 2) = true := by decide +kernel
theorem test_shuf_in_place :
    after (.shuf 0 0 0 0x39) (loaded 0x33333333222222221111111100000000#128 0#128)
      (fun t => t.cell 0 == 0x00000000333333332222222211111111#128) = true := by decide +kernel

/-! ## MOVMSKB and MOVMSKPS (42 R110, R111), through the trees of R113 and R114 too -/

theorem test_movmskb_ends :
    after (.movmskb 2 0) (loaded 0x800000000000000000000000000000FF#128 0#128) (fun t => t.cell 2 == 0x8001#128) = true := by
  decide +kernel
theorem test_movmskb_tree : movmskbBy .tree 0x0123456789ABCDEF8899AABBCCDDEEFF#128 = 0x0FFF#16 := by decide +kernel
theorem test_movmskps_negatives :
    after (.movmskps 2 0) (loaded 0x800000007FFFFFFFFFC0000000000000#128 0#128) (fun t => t.cell 2 == 0xA#128) = true := by
  decide +kernel
theorem test_movmskps_tree : movmskpsBy .tree 0x3F800000BF80000040000000C0000000#128 = 0x5#4 := by decide +kernel

/-! ## CLMUL (43 R120-R125) -/

theorem test_clmul_high_low :
    after (.clmul 3 0 1 0x01) (loaded 0x7B5B54657374566563746F725D53475D#128 0x48692853686179295B477565726F6E5D#128)
      (fun t => t.cell 3 == 0x1A2BF6DB3A30862FBABF262DF4B7D5C9#128) = true := by decide +kernel
theorem test_clmul_ignored_bits :
    after (.clmul 3 0 1 0xF0) (loaded 0x7B5B54657374566563746F725D53475D#128 0x48692853686179295B477565726F6E5D#128)
      (fun t => t.cell 3 == 0x1BD17C8D556AB5A17FA540AC2A281315#128) = true := by decide +kernel

/-! ## AES (44 R130-R139) -/

theorem test_sbox_spots : sbox 0x00 = 0x63 ∧ sbox 0x01 = 0x7C ∧ sbox 0x10 = 0xCA ∧ sbox 0x53 = 0xED ∧ sbox 0xFF = 0x16 := by decide
theorem test_aesenc_fips_round1 :
    after (.aesenc 0 0 1) (loaded 0x0848F8E92A8DC69A2BE2F4A0BEE33D19#128 0x05766C2A3939A323B12C548817FEFAA0#128)
      (fun t => t.cell 0 == 0x49506A0243EA5B6B2B359F68F27F9CA4#128) = true := by decide +kernel
theorem test_aesenc_ttable :
    aesRoundBy .tTable 0x7B5B54657374566563746F725D53475D#128 0x48692853686179295B477565726F6E5D#128 =
      0xA8311C2F9FDBA3C58B104B58DED7E595#128 := by decide +kernel
theorem test_aesenclast_whitepaper :
    after (.aesenclast 2 0 1) (loaded 0x7B5B54657374566563746F725D53475D#128 0x48692853686179295B477565726F6E5D#128)
      (fun t => t.cell 2 == 0xC7FB881E938C5964177EC42553FDC611#128) = true := by decide +kernel
theorem test_aeskeygen_rcon1 :
    after (.aeskeygen 2 0 0x01) (loaded 0x3C4FCF098815F7ABA6D2AE2816157E2B#128 0#128)
      (fun t => t.cell 2 == 0x01EB848BEB848A013424B5E524B5E434#128) = true := by decide +kernel
theorem test_aeskeygen_rcon36 :
    after (.aeskeygen 0 0 0x36) (loaded 0x000102030405060708090A0B0C0D0E0F#128 0#128)
      (fun t => t.cell 0 == 0x7B637C41637C777B2B3001513001672B#128) = true := by decide +kernel

/-! ## CVTPS2DQ and CVTSS2SI (45 R152-R156) -/

theorem test_cvtps2dq_mixed :
    after (.cvtps2dq 2 0) (loaded 0x501502F93EFFFFFFBFC0000040200000#128 0#128)
      (fun t => t.cell 2 == 0x8000000000000000FFFFFFFE00000002#128) = true := by decide +kernel
theorem test_cvtps2dq_ties :
    after (.cvtps2dq 0 0) (loaded 0x3F000000BF000000BFC00000C0200000#128 0#128)
      (fun t => t.cell 0 == 0x0000000000000000FFFFFFFEFFFFFFFE#128) = true := by decide +kernel
theorem test_cvtss2si_lane0_only :
    after (.cvtss2si 2 0) (loaded 0x7FC000007FC000007FC00000BFC00000#128 0#128) (fun t => t.cell 2 == 0xFFFFFFFE#128) = true := by
  decide +kernel
theorem test_cvt_rows :
    ([0x80000000, 0x3FBFFFFF, 0x40600000, 0xC0600000, 0x3F000002, 0xBF000002, 0x80000001, 0x007FFFFF, 0x4AFFFFFF, 0x4B000001,
      0x4EFFFFFF, 0xCEFFFFFF, 0xCF000000] : List Word).map (cvtRne 0x12345678) =
    [0x00000000, 0x00000001, 0x00000004, 0xFFFFFFFC, 0x00000001, 0xFFFFFFFF, 0x00000000, 0x00000000, 0x00800000, 0x00800001,
      0x7FFFFF80, 0x80000080, 0x80000000] := by decide +kernel
theorem test_cvt_invalid_rows :
    ([0x4F000000, 0xCF000001, 0x501502F9, 0x7F800000, 0xFF800000, 0x7FC00000, 0xFFC00000, 0x7F800001] : List Word).all
      (fun f => cvtRne 0x12345678 f == 0x12345678) = true := by decide +kernel
theorem test_round_control : RoundControl.ofBits 0b1110#4 = ⟨.towardPosInf, true, true⟩ := by decide

/-! ## Transactions (10 R27-R36, 60 R171, R172) -/

theorem test_illegal_first :
    stepped (withHost State.reset [.issue 0x0001030A]) (fun t => t.illWord == 0x0001030A && t.status == 1 && !t.isWritten 3) = true := by
  decide
theorem test_illegal_second :
    stepped (withHost (State.reset.raiseIllegal 0x0001030A) [.issue 0x1B110401])
      (fun t => t.illWord == 0x0001030A && t.statusWord == 1) = true := by decide
theorem test_read_status :
    stepped (withHost (State.reset.raiseIllegal 0) [.readStatus]) (fun t => t.response == some (.status 1)) = true := by decide
theorem test_read_illword :
    stepped (withHost (State.reset.raiseIllegal 0x0001030A) [.readIllWord]) (fun t => t.response == some (.illWord 0x0001030A)) = true := by
  decide
theorem test_read_vec :
    stepped (withHost (loaded 5#128 6#128) [.readVec 1]) (fun t => t.response == some (.vec 6#128) && !t.unwrittenRead 1) = true := by
  decide
theorem test_reset_clears :
    stepped (withHost ((loaded 5#128 6#128).raiseIllegal 0) [.reset, .readStatus])
      (fun t => !t.isWritten 0 && t.status == 0 && t.pending == [.readStatus]) = true := by decide
/-- Program P6: an unwritten second source. -/
theorem test_unwritten_source :
    after (.shuf 1 0 9 0xE4) (State.reset.writeReg 0 0x33333333222222221111111100000000#128)
      (fun t => t.unwrittenRead 9 && !t.unwrittenRead 0 && t.status == 0 && t.isWritten 1) = true := by decide
theorem test_first_step_after_reset : stepped (State.reset.withFetchWord 32 0x00010005) (fun t => t.isWritten 0) = true := by decide
theorem test_table_word : decodeTableWord 32 0x00000009 = some (.cvtss2si 0 0) ∧ decodeTableWord 32 0x0000000A = none := by decide

/-! ## Witnesses: states and operands that meet each obligation's hypotheses -/

/-- v0 written, v1 not, ILL set, and the host about to issue AESENC v0, v0, v1. -/
def busy : State := withHost ((State.reset.writeReg 0 7#128).raiseIllegal 0x0A#32) [.issue 0x00010005#32, .readStatus]

/-- The state `busy` steps to when the host resets. -/
def wiped : State := (busy.taking [.readStatus]).applyReset

theorem witness_DecodeDropsNoUsedBit : decode 0xFF0F5402#32 = .command (.movmskb 4 5) := by decide
theorem witness_UnusedFieldsIgnored :
    legal 0xEE010704#32 = true ∧ 0xEE010704#32 &&& usedMask (opField 0xEE010704#32) = 0x00010704#32 &&& usedMask (opField 0xEE010704#32) ∧
      0xEE010704#32 ≠ 0x00010704#32 := by decide
theorem witness_AssembledWordsLegal :
    assembleWord (.aeskeygen 1 2 0x36) = some 0x36002107#32 ∧ (opField 0x36002107#32).toNat ∈ [2, 3, 7, 8, 9] ∧
      assembleWord (.movmskb 4 5) = some 0x00005402#32 ∧ (opField 0x00005402#32).toNat ∈ [2, 3, 5, 6, 8, 9] := by decide
theorem witness_OutOfRangeImmediateRefused : (AsmLine.pshufd 0 0 256).imm? = some 256 ∧ 255 < 256 := by decide
theorem witness_StepRunsDecodedCommand :
    busy.pending = .issue 0x00010005#32 :: [.readStatus] ∧ decode 0x00010005#32 = .command (.aesenc 0 0 1) := by decide
theorem witness_IllegalCommandRecorded :
    (withHost busy [.issue 0#32]).pending = .issue 0#32 :: [] ∧ legal 0#32 = false ∧ step (withHost busy [.reset, .readStatus]) = .next wiped ∧
      (withHost busy [.reset, .readStatus]).ill = true ∧ wiped.ill = false := ⟨rfl, by decide, rfl, by decide⟩
theorem witness_PendingTransactionsComplete : busy.pending = .issue 0x00010005#32 :: [.readStatus] := by decide
theorem witness_IdleHoldsState : (withHost busy []).pending = [] := by decide
theorem witness_ResetTransactionEffect : (withHost busy [.reset]).pending = .reset :: [] := by decide
theorem witness_WriteVecEffect : (withHost busy [.writeVec 15 9]).pending = .writeVec 15 9 :: [] := by decide
theorem witness_ReadVecAnswersWriteVec :
    (withHost busy [.writeVec 15 9, .readVec 15]).pending = .writeVec 15 9 :: .readVec 15 :: [] := by decide
theorem witness_ReadVecOfWritten : (withHost busy [.readVec 0]).pending = .readVec 0 :: [] ∧ (withHost busy [.readVec 0]).isWritten 0 = true := by
  decide
theorem witness_ReadVecOfUnwritten :
    (withHost busy [.readVec 15]).pending = .readVec 15 :: [] ∧ (withHost busy [.readVec 15]).isWritten 15 = false := by decide
theorem witness_ReadStatusAnswersIll : (withHost busy [.readStatus]).pending = .readStatus :: [] := by decide
theorem witness_ReadIllWordAnswers : (withHost busy [.readIllWord]).pending = .readIllWord :: [] := by decide

theorem witness_OnlyResetAndIllegalIssueTouchStatus :
    step (withHost busy [.reset, .readStatus]) = .next wiped ∧ wiped.status ≠ (withHost busy [.reset, .readStatus]).status := ⟨rfl, by decide⟩
theorem witness_OnlyResetClearsWritten :
    step (withHost busy [.reset, .readStatus]) = .next wiped ∧ (withHost busy [.reset, .readStatus]).isWritten 0 = true ∧
      wiped.isWritten 0 = false := ⟨rfl, by decide⟩
theorem witness_OnlyNamedRegisterChanges :
    step (withHost busy [.writeVec 3 9]) = .next ((busy.taking []).writeReg 3 9) ∧
      ((busy.taking []).writeReg 3 9).cell 3 ≠ (withHost busy [.writeVec 3 9]).cell 3 := ⟨rfl, by decide⟩
theorem witness_ParametersNeverChange : step (withHost busy [.reset, .readStatus]) = .next wiped := rfl
/-- A read of an unwritten register has been recorded. -/
theorem witness_UnwrittenReadNeverCleared :
    step (withHost (busy.recordReads [5]) [.reset]) = .next (((busy.recordReads [5]).taking []).applyReset) ∧
      (withHost (busy.recordReads [5]) [.reset]).unwrittenRead 5 = true := ⟨rfl, by decide⟩
theorem witness_IllWordHoldsFirstIllegal :
    (withHost busy [.reset, .issue 0x0A#32, .issue 0#32]).pending = .reset :: [.issue 0x0A#32, .issue 0#32] ∧
      Transaction.reset ∉ [Transaction.issue 0x0A#32, .issue 0#32] ∧ firstIllegal [.issue 0x0A#32, .issue 0#32] = some 0x0A#32 := by decide
theorem witness_StepKeepsInvariant : Inv busy ∧ ∃ t, step busy = .next t :=
  ⟨⟨by decide +kernel, by decide, by decide, by decide⟩, _, rfl⟩
/-- The register that differs, v1, is unwritten and read by the command. -/
theorem witness_UnwrittenCellsUnobservable :
    AgreeOnWritten busy { busy with v := busy.v.set 1 9#128 } ∧ busy ≠ { busy with v := busy.v.set 1 9#128 } ∧ ∃ t, step busy = .next t :=
  ⟨⟨rfl, by decide +kernel⟩, by decide, _, rfl⟩
theorem witness_StrategiesUnobservable :
    (⟨0x80000000#32, .generic, .tree, .synth8, .tTable, .native⟩ : Config).cvtInvalid = busy.config.cvtInvalid ∧
      (⟨0x80000000#32, .generic, .tree, .synth8, .tTable, .native⟩ : Config) ≠ busy.config ∧ ∃ t, step busy = .next t :=
  ⟨by decide, by decide, _, rfl⟩
theorem witness_CommandFrame : ∃ t, exec (.aesenc 0 0 1) busy = .next t := ⟨_, rfl⟩
theorem witness_UnwrittenSourcesRecorded :
    (∃ t, exec (.aesenc 0 0 1) busy = .next t) ∧ (∃ r ∈ sources (.aesenc 0 0 1), busy.isWritten r = false) ∧
      (∃ t, exec (.movmskb 1 0) busy = .next t) ∧ ∀ r ∈ sources (.movmskb 1 0), busy.isWritten r = true :=
  ⟨⟨_, rfl⟩, by decide, ⟨_, rfl⟩, by decide⟩
theorem witness_ShufWithUnwrittenSource : busy.isWritten 0 = true ∧ busy.isWritten 1 = false := by decide
/-- The highest set bits of 3 and 5 are 1 and 2. -/
theorem witness_ClmulLaws :
    (3#64).getLsbD 1 = true ∧ (∀ k, 1 < k → (3#64).getLsbD k = false) ∧ (5#64).getLsbD 2 = true ∧ ∀ k, 2 < k → (5#64).getLsbD k = false := by
  refine ⟨by decide, fun k hk => ?_, by decide, fun k hk => ?_⟩
  · by_cases h : k < 64
    · revert hk; revert h; revert k; decide
    · exact BitVec.getLsbD_of_ge _ _ (by omega)
  · by_cases h : k < 64
    · revert hk; revert h; revert k; decide
    · exact BitVec.getLsbD_of_ge _ _ (by omega)
/-- 2.5, a tie. -/
theorem witness_ConversionRoundsToNearestEven : f32Value 0x40200000#32 = some (5 / 2) := by decide +kernel
theorem witness_RepackedLanesAreTheRegister : 64 ∈ [8, 16, 32, 64] ∧ 1 < 128 / 64 ∧ 63 < 64 := by decide

end Sys2Proof.Tests
end

/-! SUPPORT. Views of a register (00 R11): its lanes packed again, and the lanes of packed lanes. -/

namespace Sys2Proof.Machine

/-- Packing the lanes of a register gives the register: bit `k` lies at place `k % w` of lane `k / w`. -/
theorem pack_lane (w : Nat) (hw : 0 < w) (hd : w ∣ 128) (v : V128) : pack w (lane w v) = v := by
  apply BitVec.eq_of_getLsbD_eq
  intro k hk
  have hplace : k % w < w := Nat.mod_lt k hw
  rw [getLsbD_pack w hd, getLsbD_lane, Nat.div_add_mod]
  simp [hk, hplace]

/-- Each lane width of 00 R11 is positive and divides the width of a register. -/
theorem laneWidth_pos_dvd {w : Nat} (hw : w ∈ [8, 16, 32, 64]) : 0 < w ∧ w ∣ 128 := by
  revert w; decide

/-- Settles O54: every lane width divides the register into whole lanes. -/
theorem repackedLanesAreTheRegister : Obligations.RepackedLanesAreTheRegister := by
  intro v w hw
  obtain ⟨hpos, hdvd⟩ := laneWidth_pos_dvd hw
  refine ⟨pack_lane w hpos hdvd v, fun i k _ hk => ?_, lane_pack w hpos hdvd, fun _ => rfl⟩
  rw [getLsbD_lane, decide_eq_true hk, Bool.true_and]

end Sys2Proof.Machine

/-! SUPPORT. The block built with other parameters (00 R8, R9): no operation writes the parameters, and of them only
`CVT_INVALID` reaches what a step does. -/

namespace Sys2Proof.Machine

/-- The block of `s` built with the parameters `c`. -/
def State.rebuilt (s : State) (c : Config) : State := { s with config := c }

/-! ## Every operation commutes with a rebuild -/

@[simp] theorem State.rebuilt_config (s : State) (c : Config) : (s.rebuilt c).config = c := rfl
@[simp] theorem State.rebuilt_pending (s : State) (c : Config) : (s.rebuilt c).pending = s.pending := rfl
@[simp] theorem State.readReg_rebuilt (s : State) (c : Config) : (s.rebuilt c).readReg = s.readReg := rfl
@[simp] theorem State.taking_rebuilt (s : State) (c : Config) (rest : List Transaction) :
    (s.rebuilt c).taking rest = (s.taking rest).rebuilt c := rfl
@[simp] theorem State.writeReg_rebuilt (s : State) (c : Config) (r : RegIdx) (x : V128) :
    (s.rebuilt c).writeReg r x = (s.writeReg r x).rebuilt c := rfl

/-- A rebuild changes no written attribute, so the same reads are recorded. -/
@[simp] theorem State.recordReads_rebuilt (s : State) (c : Config) (rs : List RegIdx) :
    (s.rebuilt c).recordReads rs = (s.recordReads rs).rebuilt c := by
  have hu : (s.rebuilt c).unwrittenOf rs = s.unwrittenOf rs := rfl
  rw [State.recordReads, State.recordReads, hu]
  cases s.unwrittenOf rs <;> rfl

/-- A command computes the same whichever strategies are built (00 R9). -/
theorem exec_rebuilt {i : Instr} {s t : State} {c : Config} (hc : c.cvtInvalid = s.config.cvtInvalid)
    (h : exec i s = .next t) : exec i (s.rebuilt c) = .next (t.rebuilt c) := by
  rw [exec_eq] at h ⊢
  cases h
  simp [hc]

/-- A transaction does the same whichever strategies are built: an issued command by `exec_rebuilt`, and no other
transaction reads the parameters. -/
theorem perform_rebuilt {tr : Transaction} {s t : State} {c : Config} (hc : c.cvtInvalid = s.config.cvtInvalid)
    (h : perform tr s = .next t) : perform tr (s.rebuilt c) = .next (t.rebuilt c) := by
  cases tr with
  | reset => cases h; rfl
  | writeVec i x => cases h; rfl
  | readVec i =>
    cases h
    simp only [perform, performReadVec, State.recordReads_rebuilt, State.readReg_rebuilt]
    rfl
  | issue cmd =>
    simp only [perform, performIssue] at h ⊢
    cases hd : decode cmd with
    | command i =>
      rw [hd] at h
      exact exec_rebuilt hc h
    | illegal e =>
      rw [hd] at h
      cases h
      rfl
  | readStatus => cases h; rfl
  | readIllWord => cases h; rfl

/-! ## Steps -/

theorem step_rebuilt {s t : State} {c : Config} (hc : c.cvtInvalid = s.config.cvtInvalid)
    (h : step s = .next t) : step (s.rebuilt c) = .next (t.rebuilt c) := by
  cases hp : s.pending with
  | nil =>
    rw [step, nextStep, hp] at h
    cases h
    rw [step, nextStep, State.rebuilt_pending, hp]
  | cons tr rest =>
    have hp' : (s.rebuilt c).pending = tr :: rest := hp
    rw [step_of_pending hp] at h
    rw [step_of_pending hp', State.taking_rebuilt]
    exact perform_rebuilt hc h

/-- No step writes the parameters (10 R31, 70 R192). -/
theorem step_config {s t : State} (h : step s = .next t) : t.config = s.config := by
  rcases step_cases h with ⟨_, rfl⟩ | ⟨_, _, rfl⟩ | ⟨_, _, _, _, rfl⟩ | ⟨_, _, _, rfl⟩ | ⟨_, _, _, _, _, rfl⟩ |
    ⟨_, _, _, _, rfl⟩ | ⟨_, _, rfl⟩ | ⟨_, _, rfl⟩ <;> simp

/-- Settles O33: a step commutes with a rebuild that keeps `CVT_INVALID`, and keeps the parameters. -/
theorem strategiesUnobservable : Obligations.StrategiesUnobservable :=
  fun _ _ _ hc h => ⟨step_rebuilt hc h, step_config h⟩

end Sys2Proof.Machine

/-! SUPPORT. The host's transactions (10 R27): what each one's step answers, and that a step takes exactly one. -/

namespace Sys2Proof.Machine

/-! ## Reads through a state from which a transaction was taken -/

@[simp] theorem State.taking_cell (s : State) (rest : List Transaction) (r : RegIdx) : (s.taking rest).cell r = s.cell r := rfl
@[simp] theorem State.taking_isWritten (s : State) (rest : List Transaction) (r : RegIdx) :
    (s.taking rest).isWritten r = s.isWritten r := rfl
@[simp] theorem State.taking_readReg (s : State) (rest : List Transaction) : (s.taking rest).readReg = s.readReg := rfl

/-! ## Reads of registers and of the record -/

theorem readReg_of_written {s : State} {r : RegIdx} (h : s.isWritten r = true) : s.readReg r = s.cell r :=
  if_pos h

theorem readReg_of_unwritten {s : State} {r : RegIdx} (h : s.isWritten r = false) :
    s.readReg r = Config.unwrittenValue s.freeReads r := by
  simp [State.readReg, h]

/-- `Reset` marks every register unwritten (10 R36). -/
@[simp] theorem applyReset_isWritten (s : State) (r : RegIdx) : s.applyReset.isWritten r = false := by
  simp [State.isWritten]

@[simp] theorem reset_isWritten (r : RegIdx) : State.reset.isWritten r = false := by
  simp [State.isWritten]

@[simp] theorem reset_cell (r : RegIdx) : State.reset.cell r = 0#128 := by
  simp [State.cell]

@[simp] theorem reset_unwrittenRead (r : RegIdx) : State.reset.unwrittenRead r = false := by
  simp [State.unwrittenRead]

/-- A write changes the register it names, which it marks written, and no other. -/
theorem writeReg_register_cases (s : State) (q r : RegIdx) (x : V128) :
    (q = r ∧ (s.writeReg q x).isWritten r = true) ∨
    ((s.writeReg q x).cell r = s.cell r ∧ (s.writeReg q x).isWritten r = s.isWritten r) := by
  by_cases hq : q = r
  · exact .inl ⟨hq, by rw [isWritten_writeReg, if_pos hq]⟩
  · exact .inr ⟨by rw [cell_writeReg, if_neg hq], by rw [isWritten_writeReg, if_neg hq]⟩

/-! ## STATUS (10 R28) -/

theorem getLsbD_statusWord (s : State) (k : Nat) : s.statusWord.getLsbD k = (decide (k = 0) && s.ill) := by
  rw [State.statusWord, State.ill, BitVec.getLsbD_and, BitVec.getLsbD_one]
  by_cases hk : k = 0 <;> simp [hk]

@[simp] theorem raiseIllegal_ill (s : State) (cmd : Word) : (s.raiseIllegal cmd).ill = true := by
  simp [State.ill, statusWithIll]

/-- IllegalCommand sets ILL in the word that `ReadStatus` answers too. -/
theorem raiseIllegal_statusWord (s : State) (cmd : Word) :
    (s.raiseIllegal cmd).statusWord = statusWithIll s.statusWord := by
  apply BitVec.eq_of_getLsbD_eq
  intro k _
  rw [getLsbD_statusWord, raiseIllegal_ill, statusWithIll, BitVec.getLsbD_or, getLsbD_statusWord, BitVec.getLsbD_one]
  by_cases hk : k = 0 <;> simp [hk]

/-! ## The step of each transaction -/

section
variable {s : State} {rest : List Transaction}

theorem step_idle (h : s.pending = []) : step s = .next s := by
  rw [step, nextStep, h]

theorem step_reset (h : s.pending = .reset :: rest) : step s = .next (s.taking rest).applyReset :=
  step_of_pending h

theorem step_writeVec {i : RegIdx} {x : V128} (h : s.pending = .writeVec i x :: rest) :
    step s = .next ((s.taking rest).writeReg i x) :=
  step_of_pending h

theorem step_readVec {i : RegIdx} (h : s.pending = .readVec i :: rest) :
    step s = .next { (s.taking rest).recordReads [i] with response := some (.vec (s.readReg i)) } :=
  step_of_pending h

/-- A read of a written register records nothing. -/
theorem step_readVec_written {i : RegIdx} (h : s.pending = .readVec i :: rest) (hw : s.isWritten i = true) :
    step s = .next { s with pending := rest, response := some (.vec (s.cell i)) } := by
  have hrec : (s.taking rest).recordReads [i] = s.taking rest :=
    recordReads_of_written _ _ fun r hr => by rwa [List.mem_singleton.mp hr]
  rw [step_readVec h, hrec, readReg_of_written hw]
  rfl

theorem step_issue_command {cmd : Word} {i : Instr} (h : s.pending = .issue cmd :: rest) (hd : decode cmd = .command i) :
    step s = exec i (s.taking rest) := by
  rw [step_of_pending h, perform, performIssue, hd]

theorem step_issue_illegal {cmd : Word} (h : s.pending = .issue cmd :: rest) (hl : legal cmd = false) :
    step s = .next ((s.taking rest).raiseIllegal cmd) := by
  obtain ⟨e, hd⟩ := (illegal_iff cmd).mp hl
  rw [step_of_pending h, perform, performIssue, hd]

theorem step_readStatus (h : s.pending = .readStatus :: rest) :
    step s = .next { s.taking rest with response := some (.status s.statusWord) } :=
  step_of_pending h

theorem step_readIllWord (h : s.pending = .readIllWord :: rest) :
    step s = .next { s.taking rest with response := some (.illWord s.illWord) } :=
  step_of_pending h

end

/-! ## The obligations on one transaction -/

/-- Settles O10: an issued word that decodes is executed. -/
theorem stepRunsDecodedCommand : Obligations.StepRunsDecodedCommand :=
  fun _ _ _ _ hp hd => step_issue_command hp hd

/-- Settles O16, field by field. -/
theorem resetStateValues : Obligations.ResetStateValues :=
  ⟨reset_isWritten, by decide, by decide, rfl, rfl, reset_unwrittenRead, rfl, rfl⟩

/-- Settles O17. -/
theorem resetTransactionEffect : Obligations.ResetTransactionEffect :=
  fun _ _ hp => ⟨_, step_reset hp, applyReset_isWritten _, rfl, rfl, rfl, rfl, rfl, rfl⟩

/-- Settles O18: the registers by the rules of `writeReg`, the rest because a write leaves it alone. -/
theorem writeVecEffect : Obligations.WriteVecEffect := by
  intro s i x rest hp
  refine ⟨_, step_writeVec hp, ?_, ?_, fun r hr => ⟨?_, ?_⟩, rfl, rfl, rfl, rfl, rfl, rfl, rfl⟩
  · rw [cell_writeReg, if_pos rfl]
  · rw [isWritten_writeReg, if_pos rfl]
  · rw [cell_writeReg, if_neg hr.symm, State.taking_cell]
  · rw [isWritten_writeReg, if_neg hr.symm, State.taking_isWritten]

/-- Settles O20. -/
theorem readVecOfWritten : Obligations.ReadVecOfWritten :=
  fun _ _ _ hp hw => step_readVec_written hp hw

/-- Settles O21: the record gains register `i` and no other, by `recordReads_unwrittenRead`. -/
theorem readVecOfUnwritten : Obligations.ReadVecOfUnwritten := by
  intro s i rest hp hw
  have hrec (r : RegIdx) : ((s.taking rest).recordReads [i]).unwrittenRead r =
      (s.unwrittenRead r || decide (r ∈ [i] ∧ s.isWritten r = false)) := recordReads_unwrittenRead _ _ _
  refine ⟨_, step_readVec hp, by rw [readReg_of_unwritten hw], (hrec i).trans ?_, fun r hr => (hrec r).trans ?_,
    recordReads_v _ _, recordReads_written _ _, recordReads_status _ _, recordReads_illWord _ _,
    recordReads_config _ _, recordReads_pending _ _⟩
  · simp [hw]
  · simp [hr]

/-- Settles O22: the answer is STATUS with all but ILL masked off. -/
theorem readStatusAnswersIll : Obligations.ReadStatusAnswersIll := by
  intro s rest hp
  refine ⟨s.statusWord, step_readStatus hp, ?_, fun k hk => ?_⟩
  · rw [getLsbD_statusWord, decide_eq_true rfl, Bool.true_and]
  · simp [getLsbD_statusWord, hk.ne']

/-- Settles O23. -/
theorem readIllWordAnswers : Obligations.ReadIllWordAnswers :=
  fun _ _ hp => step_readIllWord hp

/-- Settles O19: the write marks the register written, so the read answers its contents. -/
theorem readVecAnswersWriteVec : Obligations.ReadVecAnswersWriteVec := by
  intro s i x rest hp
  have hwritten : ((s.taking (.readVec i :: rest)).writeReg i x).isWritten i = true := by
    rw [isWritten_writeReg, if_pos rfl]
  refine ⟨{ (s.taking (.readVec i :: rest)).writeReg i x with pending := rest, response := some (.vec x) }, ?_, rfl, rfl⟩
  rw [run_succ (step_writeVec hp), run_succ (step_readVec_written rfl hwritten), cell_writeReg, if_pos rfl]
  rfl

end Sys2Proof.Machine

/-! SUPPORT. What a step changes: which transactions reach a register, and which reach STATUS and ILLWORD. -/

namespace Sys2Proof.Machine

/-- A step changes register `r` by `Reset`, or by a transaction that names `r` and marks it written, or not at all. -/
theorem step_register_cases {s t : State} (h : step s = .next t) (r : RegIdx) :
    (∃ rest, s.pending = .reset :: rest) ∨
    (t.isWritten r = true ∧ ∃ rest, (∃ x, s.pending = .writeVec r x :: rest) ∨
      ∃ cmd i, s.pending = .issue cmd :: rest ∧ decode cmd = .command i ∧ dest i = r) ∨
    (t.cell r = s.cell r ∧ t.isWritten r = s.isWritten r) := by
  rcases step_cases h with ⟨_, rfl⟩ | ⟨rest, hp, _⟩ | ⟨rest, i, x, hp, rfl⟩ | ⟨_, _, _, rfl⟩ | ⟨rest, cmd, i, hp, hd, rfl⟩ |
    ⟨_, _, _, _, rfl⟩ | ⟨_, _, rfl⟩ | ⟨_, _, rfl⟩
  · exact .inr (.inr ⟨rfl, rfl⟩)
  · exact .inl ⟨rest, hp⟩
  · rcases writeReg_register_cases (s.taking rest) i r x with ⟨rfl, hw⟩ | hsame
    · exact .inr (.inl ⟨hw, rest, .inl ⟨x, hp⟩⟩)
    · exact .inr (.inr hsame)
  · exact .inr (.inr ⟨recordReads_cell _ _ _, recordReads_isWritten _ _ _⟩)
  · rcases writeReg_register_cases ((s.taking rest).recordReads (sources i)) (dest i) r
      (resultOf s.config.cvtInvalid (s.taking rest).readReg i) with ⟨hr, hw⟩ | ⟨hcell, hwritten⟩
    · exact .inr (.inl ⟨hw, rest, .inr ⟨cmd, i, hp, hd, hr⟩⟩)
    · exact .inr (.inr ⟨hcell.trans (recordReads_cell _ _ _), hwritten.trans (recordReads_isWritten _ _ _)⟩)
  · exact .inr (.inr ⟨rfl, rfl⟩)
  · exact .inr (.inr ⟨rfl, rfl⟩)
  · exact .inr (.inr ⟨rfl, rfl⟩)

/-- A step leaves STATUS and ILLWORD alone but for `Reset` and an illegal `Issue` (10 R27). -/
theorem step_status_cases {s t : State} (h : step s = .next t) :
    (∃ rest, s.pending = .reset :: rest) ∨ (∃ rest cmd, s.pending = .issue cmd :: rest ∧ legal cmd = false) ∨
    (t.status = s.status ∧ t.illWord = s.illWord) := by
  rcases step_cases h with ⟨_, rfl⟩ | ⟨rest, hp, _⟩ | ⟨_, _, _, _, rfl⟩ | ⟨_, _, _, rfl⟩ | ⟨_, _, _, _, _, rfl⟩ |
    ⟨rest, cmd, hp, hl, _⟩ | ⟨_, _, rfl⟩ | ⟨_, _, rfl⟩
  · exact .inr (.inr ⟨rfl, rfl⟩)
  · exact .inl ⟨rest, hp⟩
  · exact .inr (.inr ⟨rfl, rfl⟩)
  · exact .inr (.inr ⟨recordReads_status _ _, recordReads_illWord _ _⟩)
  · exact .inr (.inr ⟨recordReads_status _ _, recordReads_illWord _ _⟩)
  · exact .inr (.inl ⟨rest, cmd, hp, hl⟩)
  · exact .inr (.inr ⟨rfl, rfl⟩)
  · exact .inr (.inr ⟨rfl, rfl⟩)

/-- Settles O24. -/
theorem onlyResetAndIllegalIssueTouchStatus : Obligations.OnlyResetAndIllegalIssueTouchStatus := by
  intro s t h hchanged
  rcases step_status_cases h with ⟨rest, hp⟩ | ⟨rest, cmd, hp, hl⟩ | ⟨hstatus, hill⟩
  · exact ⟨rest, .inl hp⟩
  · exact ⟨rest, .inr ⟨cmd, hp, hl⟩⟩
  · exact absurd hchanged (by simp [hstatus, hill])

/-- Settles O25: every other transaction that reaches the register marks it written. -/
theorem onlyResetClearsWritten : Obligations.OnlyResetClearsWritten := by
  intro s t r h hbefore hafter
  rcases step_register_cases h r with hreset | ⟨hw, _⟩ | ⟨_, hsame⟩
  · exact hreset
  · exact absurd hw (by simp [hafter])
  · exact absurd hsame (by simp [hbefore, hafter])

/-- Settles O26. -/
theorem onlyNamedRegisterChanges : Obligations.OnlyNamedRegisterChanges := by
  intro s t r h hchanged
  rcases step_register_cases h r with ⟨rest, hp⟩ | ⟨_, rest, hnamed⟩ | ⟨hcell, hwritten⟩
  · exact ⟨rest, .inl hp⟩
  · exact ⟨rest, .inr hnamed⟩
  · exact absurd hchanged (by simp [hcell, hwritten])

end Sys2Proof.Machine

/-! SUPPORT. ILLWORD over a run (10 R28, R29): it holds the first illegal word issued since `Reset`. -/

namespace Sys2Proof.Machine

/-- STATUS and ILLWORD are as they stand when `first` is the first illegal command word issued since `Reset`, if any. -/
structure RecordsFirst (first : Option Word) (s : State) : Prop where
  status : s.status = if first.isSome then 0x00000001#32 else 0x00000000#32
  illWord : s.illWord = first.getD 0x00000000#32

theorem RecordsFirst.ill {first : Option Word} {s : State} (h : RecordsFirst first s) : s.ill = first.isSome := by
  rw [State.ill, h.status]
  cases first <;> simp

theorem RecordsFirst.statusWord {first : Option Word} {s : State} (h : RecordsFirst first s) :
    s.statusWord = if first.isSome then 0x00000001#32 else 0x00000000#32 := by
  rw [State.statusWord, h.status]
  cases first <;> simp

/-- What leaves STATUS and ILLWORD alone leaves them as they stood. -/
theorem RecordsFirst.of_eq {first : Option Word} {s t : State} (h : RecordsFirst first s) (hstatus : t.status = s.status)
    (hill : t.illWord = s.illWord) : RecordsFirst first t :=
  ⟨hstatus.trans h.status, hill.trans h.illWord⟩

theorem applyReset_recordsFirst (s : State) : RecordsFirst none s.applyReset := ⟨rfl, rfl⟩

/-- IllegalCommand records its word if it is the first (60 R171). -/
theorem RecordsFirst.raiseIllegal {first : Option Word} {s : State} (h : RecordsFirst first s) (cmd : Word) :
    RecordsFirst (first.or (some cmd)) (s.raiseIllegal cmd) := by
  constructor
  · rw [State.raiseIllegal_status, h.status]
    cases first <;> simp [statusWithIll]
  · rw [State.raiseIllegal_illWord, h.ill, h.illWord]
    cases first <;> rfl

theorem firstIllegal_cons (tr : Transaction) (ts : List Transaction) :
    firstIllegal (tr :: ts) = (firstIllegal [tr]).or (firstIllegal ts) := by
  cases tr with
  | issue cmd => cases hl : legal cmd <;> simp [firstIllegal, hl]
  | _ => simp [firstIllegal]

/-- A transaction that issues no illegal word, and so leaves STATUS and ILLWORD alone, leaves the first one as it was. -/
theorem RecordsFirst.or_none {first : Option Word} {s t : State} {tr : Transaction} (h : RecordsFirst first s)
    (hnone : firstIllegal [tr] = none) (hstatus : t.status = s.status) (hill : t.illWord = s.illWord) :
    RecordsFirst (first.or (firstIllegal [tr])) t := by
  rw [hnone, Option.or_none]
  exact h.of_eq hstatus hill

/-- A step whose transaction is not `Reset` records an illegal word if it is the first. -/
theorem step_recordsFirst {first : Option Word} {s : State} {tr : Transaction} {rest : List Transaction}
    (h : RecordsFirst first s) (hp : s.pending = tr :: rest) (hreset : tr ≠ .reset) :
    ∃ t, step s = .next t ∧ t.pending = rest ∧ RecordsFirst (first.or (firstIllegal [tr])) t := by
  cases tr with
  | reset => contradiction
  | writeVec i x => exact ⟨_, step_writeVec hp, rfl, h.or_none rfl rfl rfl⟩
  | readVec i =>
    exact ⟨_, step_readVec hp, recordReads_pending _ _, h.or_none rfl (recordReads_status _ _) (recordReads_illWord _ _)⟩
  | issue cmd =>
    cases hl : legal cmd with
    | true =>
      obtain ⟨i, hd⟩ := (legal_iff_command cmd).mp hl
      exact ⟨_, (step_issue_command hp hd).trans (exec_eq _ _), recordReads_pending _ _,
        h.or_none (by simp [firstIllegal, hl]) (recordReads_status _ _) (recordReads_illWord _ _)⟩
    | false =>
      have hfirst : firstIllegal [.issue cmd] = some cmd := by simp [firstIllegal, hl]
      have htaken : RecordsFirst first (s.taking rest) := h.of_eq rfl rfl
      exact ⟨_, step_issue_illegal hp hl, rfl, hfirst ▸ htaken.raiseIllegal cmd⟩
  | readStatus => exact ⟨_, step_readStatus hp, rfl, h.or_none rfl rfl rfl⟩
  | readIllWord => exact ⟨_, step_readIllWord hp, rfl, h.or_none rfl rfl rfl⟩

/-- The same over a run of transactions without `Reset`. -/
theorem run_recordsFirst {first : Option Word} {s : State} {ts : List Transaction} (h : RecordsFirst first s)
    (hp : s.pending = ts) (hreset : Transaction.reset ∉ ts) :
    ∃ t, core.run ts.length s = .next t ∧ RecordsFirst (first.or (firstIllegal ts)) t := by
  induction ts generalizing first s with
  | nil => exact ⟨s, rfl, by rwa [firstIllegal, Option.or_none]⟩
  | cons tr rest ih =>
    obtain ⟨htr, hrest⟩ := List.ne_and_not_mem_of_not_mem_cons hreset
    obtain ⟨u, hu, hpu, hfirst⟩ := step_recordsFirst h hp htr.symm
    obtain ⟨t, hrun, ht⟩ := ih hfirst hpu hrest
    exact ⟨t, (run_succ hu _).trans hrun, by rwa [firstIllegal_cons, ← Option.or_assoc]⟩

/-- Settles O29: after `Reset` nothing is recorded, and the run without another records the first illegal word. -/
theorem illWordHoldsFirstIllegal : Obligations.IllWordHoldsFirstIllegal := by
  intro s ts hp hreset
  obtain ⟨t, hrun, ht⟩ := run_recordsFirst (applyReset_recordsFirst (s.taking ts)) rfl hreset
  rw [Option.none_or] at ht
  exact ⟨t, (run_succ (step_reset hp) _).trans hrun, ht.illWord, ht.statusWord⟩

end Sys2Proof.Machine

/-! SUPPORT. The state invariant: every operation keeps it, and so every step. -/

namespace Sys2Proof.Machine

/-- The invariant speaks of the registers, the written attributes, STATUS and ILLWORD alone. -/
theorem Inv.of_eq {s t : State} (h : Inv s) (hv : t.v = s.v) (hwritten : t.written = s.written)
    (hstatus : t.status = s.status) (hill : t.illWord = s.illWord) : Inv t := by
  obtain ⟨hcell, hreserved, hclear, hillegal⟩ := h
  constructor
  · simpa only [State.isWritten, State.cell, hv, hwritten] using hcell
  · simpa only [State.statusWord, hstatus] using hreserved
  · simpa only [State.ill, hstatus, hill] using hclear
  · simpa only [hill] using hillegal

theorem Inv.taking {s : State} (h : Inv s) (rest : List Transaction) : Inv (s.taking rest) :=
  h.of_eq rfl rfl rfl rfl

theorem Inv.recordReads {s : State} (h : Inv s) (rs : List RegIdx) : Inv (s.recordReads rs) :=
  h.of_eq (recordReads_v _ _) (recordReads_written _ _) (recordReads_status _ _) (recordReads_illWord _ _)

/-- A register that is unwritten after a write was not the one written. -/
theorem Inv.writeReg {s : State} (h : Inv s) (r : RegIdx) (x : V128) : Inv (s.writeReg r x) where
  unwrittenCell q hq := by
    rcases writeReg_register_cases s r q x with ⟨_, hw⟩ | ⟨hcell, hwritten⟩
    · exact absurd hw (by simp [hq])
    · exact hcell.trans (h.unwrittenCell q (hwritten.symm.trans hq))
  statusReserved := h.statusReserved
  illWordClear := h.illWordClear
  illWordIllegal := h.illWordIllegal

/-- IllegalCommand writes an illegal word, and ILL is set from then on. -/
theorem Inv.raiseIllegal {s : State} (h : Inv s) {cmd : Word} (hcmd : legal cmd = false) : Inv (s.raiseIllegal cmd) where
  unwrittenCell := h.unwrittenCell
  statusReserved := by rw [raiseIllegal_statusWord, h.statusReserved, State.raiseIllegal_status]
  illWordClear hclear := absurd hclear (by simp)
  illWordIllegal := by
    rw [State.raiseIllegal_illWord]
    split
    · exact h.illWordIllegal
    · exact hcmd

/-- Settles O30: every register stores 0, and the all-zero word is no command. -/
theorem resetMeetsInvariant : Obligations.ResetMeetsInvariant where
  unwrittenCell r _ := reset_cell r
  statusReserved := by decide
  illWordClear _ := rfl
  illWordIllegal := by decide

theorem applyReset_inv (s : State) : Inv s.applyReset :=
  Inv.of_eq resetMeetsInvariant rfl rfl rfl rfl

/-- Settles O31: every operation a step is built from keeps the invariant. -/
theorem stepKeepsInvariant : Obligations.StepKeepsInvariant := by
  intro s t h hstep
  rcases step_cases hstep with ⟨_, rfl⟩ | ⟨_, _, rfl⟩ | ⟨rest, i, x, _, rfl⟩ | ⟨rest, i, _, rfl⟩ | ⟨rest, _, i, _, _, rfl⟩ |
    ⟨rest, _, _, hl, rfl⟩ | ⟨rest, _, rfl⟩ | ⟨rest, _, rfl⟩
  · exact h
  · exact applyReset_inv _
  · exact (h.taking rest).writeReg i x
  · exact ((h.taking rest).recordReads [i]).of_eq rfl rfl rfl rfl
  · exact ((h.taking rest).recordReads (sources i)).writeReg _ _
  · exact (h.taking rest).raiseIllegal hl
  · exact (h.taking rest).of_eq rfl rfl rfl rfl
  · exact (h.taking rest).of_eq rfl rfl rfl rfl

end Sys2Proof.Machine

/-! SUPPORT. What unwritten registers store (10 R22): every operation keeps two states that differ only there so, and reads
the same in both. -/

namespace Sys2Proof.Machine

/-- The state `s` whose registers store `cells`. -/
def State.storing (s : State) (cells : Vector V128 16) : State := { s with v := cells }

/-- Two states that agree on the written registers are one state with two contents. -/
theorem agreeOnWritten_iff {s s' : State} :
    AgreeOnWritten s s' ↔ ∃ cells, s' = s.storing cells ∧ ∀ r, s.isWritten r = true → (s.storing cells).cell r = s.cell r := by
  constructor
  · rintro ⟨hs, hcell⟩
    have hs' : s' = s.storing s'.v := hs
    exact ⟨s'.v, hs', by rwa [← hs']⟩
  · rintro ⟨cells, rfl, hcell⟩
    exact ⟨rfl, hcell⟩

section
variable {s s' : State}

theorem AgreeOnWritten.pending_eq (h : AgreeOnWritten s s') : s'.pending = s.pending := (congrArg State.pending h.1 :)

theorem AgreeOnWritten.config_eq (h : AgreeOnWritten s s') : s'.config = s.config := (congrArg State.config h.1 :)

theorem AgreeOnWritten.response_eq (h : AgreeOnWritten s s') : s'.response = s.response := (congrArg State.response h.1 :)

theorem AgreeOnWritten.statusWord_eq (h : AgreeOnWritten s s') : s'.statusWord = s.statusWord :=
  (congrArg State.statusWord h.1 :)

theorem AgreeOnWritten.illWord_eq (h : AgreeOnWritten s s') : s'.illWord = s.illWord := (congrArg State.illWord h.1 :)

/-- A read answers the contents of a written register, where the two agree, or a free value that does not depend on what
is stored (log 19). -/
theorem AgreeOnWritten.readReg_eq (h : AgreeOnWritten s s') : s'.readReg = s.readReg := by
  obtain ⟨cells, rfl, hcell⟩ := agreeOnWritten_iff.mp h
  funext r
  cases hr : s.isWritten r with
  | true => rw [readReg_of_written hr, readReg_of_written (s := s.storing cells) hr, hcell r hr]
  | false => rw [readReg_of_unwritten hr, readReg_of_unwritten (s := s.storing cells) hr]; rfl

theorem AgreeOnWritten.taking (h : AgreeOnWritten s s') (rest : List Transaction) :
    AgreeOnWritten (s.taking rest) (s'.taking rest) := by
  obtain ⟨cells, rfl, hcell⟩ := agreeOnWritten_iff.mp h
  exact ⟨rfl, hcell⟩

theorem AgreeOnWritten.answering (h : AgreeOnWritten s s') (a : Option Response) :
    AgreeOnWritten { s with response := a } { s' with response := a } := by
  obtain ⟨cells, rfl, hcell⟩ := agreeOnWritten_iff.mp h
  exact ⟨rfl, hcell⟩

theorem AgreeOnWritten.raiseIllegal (h : AgreeOnWritten s s') (cmd : Word) :
    AgreeOnWritten (s.raiseIllegal cmd) (s'.raiseIllegal cmd) := by
  obtain ⟨cells, rfl, hcell⟩ := agreeOnWritten_iff.mp h
  exact ⟨rfl, hcell⟩

/-- `Reset` gives both states the same contents. -/
theorem AgreeOnWritten.applyReset (h : AgreeOnWritten s s') : AgreeOnWritten s.applyReset s'.applyReset := by
  obtain ⟨cells, rfl, _⟩ := agreeOnWritten_iff.mp h
  exact ⟨rfl, fun _ _ => rfl⟩

/-- Which reads are recorded depends on the written attributes alone. -/
theorem recordReads_storing (s : State) (cells : Vector V128 16) (rs : List RegIdx) :
    (s.storing cells).recordReads rs = (s.recordReads rs).storing cells := by
  have hu : (s.storing cells).unwrittenOf rs = s.unwrittenOf rs := rfl
  rw [State.recordReads, State.recordReads, hu]
  cases s.unwrittenOf rs <;> rfl

theorem AgreeOnWritten.recordReads (h : AgreeOnWritten s s') (rs : List RegIdx) :
    AgreeOnWritten (s.recordReads rs) (s'.recordReads rs) := by
  obtain ⟨cells, rfl, hcell⟩ := agreeOnWritten_iff.mp h
  refine agreeOnWritten_iff.mpr ⟨cells, recordReads_storing s cells rs, fun r hr => ?_⟩
  rw [recordReads_isWritten] at hr
  exact (hcell r hr).trans (recordReads_cell s rs r).symm

/-- After a write both states store the same in the register written. -/
theorem AgreeOnWritten.writeReg (h : AgreeOnWritten s s') (r : RegIdx) (x : V128) :
    AgreeOnWritten (s.writeReg r x) (s'.writeReg r x) := by
  obtain ⟨cells, rfl, hcell⟩ := agreeOnWritten_iff.mp h
  refine ⟨rfl, fun q hq => ?_⟩
  rw [cell_writeReg, cell_writeReg]
  split
  · rfl
  · next hne => exact hcell q (by rwa [isWritten_writeReg, if_neg hne] at hq)

end

/-- The same transaction is next in both states, what it reads is the same, and every operation it is built from keeps
the agreement. -/
theorem step_agreeOnWritten {s s' t : State} (h : AgreeOnWritten s s') (hstep : step s = .next t) :
    ∃ t', step s' = .next t' ∧ AgreeOnWritten t t' := by
  have hnext {ts : List Transaction} (hp : s.pending = ts) : s'.pending = ts := h.pending_eq.trans hp
  rcases step_cases hstep with ⟨hp, rfl⟩ | ⟨rest, hp, rfl⟩ | ⟨rest, i, x, hp, rfl⟩ | ⟨rest, i, hp, rfl⟩ |
    ⟨rest, _, i, hp, hd, rfl⟩ | ⟨rest, cmd, hp, hl, rfl⟩ | ⟨rest, hp, rfl⟩ | ⟨rest, hp, rfl⟩
  · exact ⟨s', step_idle (hnext hp), h⟩
  · exact ⟨_, step_reset (hnext hp), (h.taking rest).applyReset⟩
  · exact ⟨_, step_writeVec (hnext hp), (h.taking rest).writeReg i x⟩
  · refine ⟨_, step_readVec (hnext hp), ?_⟩
    rw [h.readReg_eq, State.taking_readReg]
    exact ((h.taking rest).recordReads [i]).answering _
  · refine ⟨_, (step_issue_command (hnext hp) hd).trans (exec_eq i _), ?_⟩
    rw [State.taking_config, h.config_eq, (h.taking rest).readReg_eq]
    exact ((h.taking rest).recordReads (sources i)).writeReg _ _
  · exact ⟨_, step_issue_illegal (hnext hp) hl, (h.taking rest).raiseIllegal cmd⟩
  · refine ⟨_, step_readStatus (hnext hp), ?_⟩
    rw [h.statusWord_eq]
    exact (h.taking rest).answering _
  · refine ⟨_, step_readIllWord (hnext hp), ?_⟩
    rw [h.illWord_eq]
    exact (h.taking rest).answering _

/-- Settles O32: a step keeps the agreement, and two states that agree hold the same response. -/
theorem unwrittenCellsUnobservable : Obligations.UnwrittenCellsUnobservable := by
  intro s s' t h hstep
  obtain ⟨t', hstep', ht⟩ := step_agreeOnWritten h hstep
  exact ⟨t', hstep', ht, ht.response_eq⟩

end Sys2Proof.Machine

/-! SUPPORT. Serialized commands (20 R49, 30 R76): a word's four bytes, byte 0 first, give the word back. -/

namespace Sys2Proof

/-- Each byte's slice begins where the slice of the byte below it ends, so joining them leaves one slice of 32 bits. -/
theorem cmdOfBytes_slices (cmd : Word) :
    cmdOfBytes (cmd.extractLsb' 0 8) (cmd.extractLsb' 8 8) (cmd.extractLsb' 16 8) (cmd.extractLsb' 24 8) = cmd := by
  rw [cmdOfBytes, BitVec.extractLsb'_append_extractLsb'_eq_extractLsb' (by rfl),
    BitVec.extractLsb'_append_extractLsb'_eq_extractLsb' (by rfl),
    BitVec.extractLsb'_append_extractLsb'_eq_extractLsb' (by rfl)]
  exact BitVec.extractLsb'_eq_self

theorem decodeBytes_cons (b0 b1 b2 b3 : Byte) (rest : List Byte) :
    decodeBytes (b0 :: b1 :: b2 :: b3 :: rest) = (decode (cmdOfBytes b0 b1 b2 b3), rest) := rfl

/-- Settles O7: the decoder joins the four bytes in the order `bytesOfCmd` lists them. -/
theorem serializedCommandsDecode : Obligations.SerializedCommandsDecode := by
  intro cmd rest
  simp only [bytesOfCmd, List.cons_append, List.nil_append, decodeBytes_cons, cmdOfBytes_slices]

end Sys2Proof

/-! SUPPORT. The fields of a command word (30 R66): they tile it, so two words with the same fields are the same. -/

namespace Sys2Proof

/-- Settles O1: each field is a slice of the word's digits, and the slices are adjacent. -/
theorem fieldsTileCommandWord : Obligations.FieldsTileCommandWord := by
  intro cmd
  have hlt : cmd.toNat < 2 ^ 32 := cmd.isLt
  simp only [opField, vdField, vaField, vbField, rsvField, immField, BitVec.extractLsb'_toNat, Nat.shiftRight_eq_div_pow]
  omega

theorem ext_fields {a b : Word} (hop : opField a = opField b) (hvd : vdField a = vdField b) (hva : vaField a = vaField b)
    (hvb : vbField a = vbField b) (hrsv : rsvField a = rsvField b) (himm : immField a = immField b) : a = b :=
  BitVec.eq_of_toNat_eq <| by
    rw [fieldsTileCommandWord a, fieldsTileCommandWord b, hop, hvd, hva, hvb, hrsv, himm]

@[simp] theorem opField_and (a b : Word) : opField (a &&& b) = opField a &&& opField b := BitVec.extractLsb'_and
@[simp] theorem vdField_and (a b : Word) : vdField (a &&& b) = vdField a &&& vdField b := BitVec.extractLsb'_and
@[simp] theorem vaField_and (a b : Word) : vaField (a &&& b) = vaField a &&& vaField b := BitVec.extractLsb'_and
@[simp] theorem vbField_and (a b : Word) : vbField (a &&& b) = vbField a &&& vbField b := BitVec.extractLsb'_and
@[simp] theorem rsvField_and (a b : Word) : rsvField (a &&& b) = rsvField a &&& rsvField b := BitVec.extractLsb'_and
@[simp] theorem immField_and (a b : Word) : immField (a &&& b) = immField a &&& immField b := BitVec.extractLsb'_and

end Sys2Proof

/-! SUPPORT. The decoder (30 R65, R72, R74): the words of each command, and the words that are no command. -/

namespace Sys2Proof

/-- The operands of `i` are those that the fields of `cmd` carry. -/
def OperandsFrom (cmd : Word) : Instr → Prop
  | .shuf vd va vb imm8 | .clmul vd va vb imm8 =>
    vd = vdField cmd ∧ va = vaField cmd ∧ vb = vbField cmd ∧ imm8 = immField cmd
  | .aesenc vd va vb | .aesenclast vd va vb => vd = vdField cmd ∧ va = vaField cmd ∧ vb = vbField cmd
  | .aeskeygen vd va imm8 => vd = vdField cmd ∧ va = vaField cmd ∧ imm8 = immField cmd
  | .movmskb vd va | .movmskps vd va | .cvtps2dq vd va | .cvtss2si vd va => vd = vdField cmd ∧ va = vaField cmd

/-- The words of a command: a zero `rsv`, its opcode, and its operands in their fields. -/
theorem decode_eq_command_iff {cmd : Word} {i : Instr} :
    decode cmd = .command i ↔ rsvField cmd = 0#4 ∧ opField cmd = opcode i ∧ OperandsFrom cmd i := by
  constructor
  · intro h
    rw [decode] at h
    split at h
    · cases h
    · next hrsv =>
      refine ⟨not_not.mp hrsv, ?_⟩
      split at h <;> cases h <;> exact ⟨BitVec.eq_of_toNat_eq ‹_›, by simp [OperandsFrom]⟩
  · rintro ⟨hrsv, hop, hfields⟩
    cases i <;> simp_all [OperandsFrom, decode, opcode]

theorem operandsFrom_encode (i : Instr) : OperandsFrom (encode i) i := by
  cases i <;> simp [OperandsFrom, encode]

/-- Settles O3: the word of a command carries its opcode, a zero `rsv` and its operands. -/
theorem decodeEncodeRoundTrip : Obligations.DecodeEncodeRoundTrip :=
  fun i => decode_eq_command_iff.mpr ⟨rsvField_encode i, opField_encode i, operandsFrom_encode i⟩

/-- Settles O6: nine fixed words, decoded. -/
theorem workedEncodingsDecode : Obligations.WorkedEncodingsDecode := by
  unfold Obligations.WorkedEncodingsDecode
  decide

end Sys2Proof

namespace Sys2Proof.Machine

/-- A word is not legal exactly by clause (a) or clause (b) of 30 R74. -/
theorem legal_eq_false_iff (cmd : Word) :
    legal cmd = false ↔ (opField cmd = 0x00#8 ∨ 0x0A ≤ (opField cmd).toNat) ∨ rsvField cmd ≠ 0#4 := by
  have hzero : opField cmd = 0x00#8 ↔ (opField cmd).toNat = 0 := (BitVec.toNat_inj (y := 0x00#8)).symm
  have hrange : ¬ (1 ≤ (opField cmd).toNat ∧ (opField cmd).toNat ≤ 9) ↔
      (opField cmd).toNat = 0 ∨ 0x0A ≤ (opField cmd).toNat := by omega
  rw [hzero, ← hrange, ← Bool.not_eq_true]
  simp only [legal, Bool.and_eq_true, decide_eq_true_eq]
  tauto

theorem instr?_decode_eq_none_iff (cmd : Word) : (decode cmd).instr? = none ↔ legal cmd = false := by
  rw [illegal_iff]
  cases decode cmd <;> simp [Decoded.instr?]

theorem causeOf_eq_illegalCommand_iff (cmd : Word) : causeOf cmd = .illegalCommand ↔ legal cmd = false := by
  rw [illegal_iff, causeOf]
  cases decode cmd <;> simp

/-- Settles O2: the decoder and the cause both refuse exactly the words that are not legal. -/
theorem illegalExactlyUnassignedOrReserved : Obligations.IllegalExactlyUnassignedOrReserved := fun cmd =>
  ⟨(instr?_decode_eq_none_iff cmd).trans (legal_eq_false_iff cmd),
    (causeOf_eq_illegalCommand_iff cmd).trans (legal_eq_false_iff cmd)⟩

end Sys2Proof.Machine

/-! SUPPORT. Used and unused bits (30 R70, R73): the words of one command agree on the bits it uses, and words that agree
there do the same. -/

namespace Sys2Proof

@[simp] theorem opField_usedMask (op : Byte) : opField (usedMask op) = 0xFF#8 := by rw [usedMask]; split <;> rfl
@[simp] theorem vdField_usedMask (op : Byte) : vdField (usedMask op) = 0xF#4 := by rw [usedMask]; split <;> rfl
@[simp] theorem vaField_usedMask (op : Byte) : vaField (usedMask op) = 0xF#4 := by rw [usedMask]; split <;> rfl
@[simp] theorem rsvField_usedMask (op : Byte) : rsvField (usedMask op) = 0xF#4 := by rw [usedMask]; split <;> rfl

/-- The bits of `vb` a command uses (30 R73). -/
def vbMask : Instr → RegIdx
  | .shuf .. | .clmul .. | .aesenc .. | .aesenclast .. => 0xF#4
  | _ => 0x0#4

/-- The bits of `imm8` a command uses (30 R70): for CLMUL the two half selectors. -/
def immMask : Instr → Byte
  | .shuf .. | .aeskeygen .. => 0xFF#8
  | .clmul .. => 0x11#8
  | _ => 0x00#8

@[simp] theorem vbField_usedMask (i : Instr) : vbField (usedMask (opcode i)) = vbMask i := by
  cases i <;> rw [opcode] <;> rfl
@[simp] theorem immField_usedMask (i : Instr) : immField (usedMask (opcode i)) = immMask i := by
  cases i <;> rw [opcode] <;> rfl

/-- A field under a full mask is the field. -/
@[simp] theorem and_fullMask4 (x : BitVec 4) : x &&& 0xF#4 = x := BitVec.and_allOnes
@[simp] theorem and_fullMask8 (x : BitVec 8) : x &&& 0xFF#8 = x := BitVec.and_allOnes

/-- The fields of two words agree on the bits that `i` uses. -/
structure AgreeOnUsed (i : Instr) (a b : Word) : Prop where
  op : opField a = opField b
  vd : vdField a = vdField b
  va : vaField a = vaField b
  vb : vbField a &&& vbMask i = vbField b &&& vbMask i
  rsv : rsvField a = rsvField b
  imm : immField a &&& immMask i = immField b &&& immMask i

/-- Agreement on the used bits is agreement field by field. -/
theorem and_usedMask_eq_iff {i : Instr} {a b : Word} :
    a &&& usedMask (opcode i) = b &&& usedMask (opcode i) ↔ AgreeOnUsed i a b := by
  constructor
  · intro h
    constructor
    · simpa using congrArg opField h
    · simpa using congrArg vdField h
    · simpa using congrArg vaField h
    · simpa using congrArg vbField h
    · simpa using congrArg rsvField h
    · simpa using congrArg immField h
  · rintro ⟨hop, hvd, hva, hvb, hrsv, himm⟩
    apply ext_fields <;> simpa

/-- A command determines the bits it uses of its words: each is the opcode, a zero `rsv` or an operand. -/
theorem agreeOnUsed_of_decode {i : Instr} {a b : Word} (ha : decode a = .command i) (hb : decode b = .command i) :
    AgreeOnUsed i a b := by
  obtain ⟨hrsva, hopa, ha⟩ := decode_eq_command_iff.mp ha
  obtain ⟨hrsvb, hopb, hb⟩ := decode_eq_command_iff.mp hb
  constructor
  case op => rw [hopa, hopb]
  case rsv => rw [hrsva, hrsvb]
  all_goals cases i <;> simp_all [OperandsFrom, vbMask, immMask]

/-- Settles O4: a word and the encoding of what it decodes to are two words of one command. -/
theorem decodeDropsNoUsedBit : Obligations.DecodeDropsNoUsedBit := by
  intro cmd i hd
  obtain ⟨_, hop, _⟩ := decode_eq_command_iff.mp hd
  rw [hop, and_usedMask_eq_iff]
  exact agreeOnUsed_of_decode (decodeEncodeRoundTrip i) hd

end Sys2Proof

namespace Sys2Proof.Machine

/-- CLMUL reads its immediate at the two selector bits only (43 R125). -/
theorem exec_clmul_congr {imm8 imm8' : Byte} (h : imm8 &&& 0x11#8 = imm8' &&& 0x11#8) (vd va vb : RegIdx) (s : State) :
    exec (.clmul vd va vb imm8) s = exec (.clmul vd va vb imm8') s := by
  have h0 : imm8.getLsbD 0 = imm8'.getLsbD 0 := by simpa using congrArg (·.getLsbD 0) h
  have h4 : imm8.getLsbD 4 = imm8'.getLsbD 4 := by simpa using congrArg (·.getLsbD 4) h
  simp only [exec_eq, sources, dest, resultOf, h0, h4]

/-- A word that agrees on the used bits is a command too and does the same: the same command, or for CLMUL one whose
immediate differs in ignored bits. -/
theorem exec_of_agreeOnUsed {i : Instr} {a b : Word} (hd : decode a = .command i) (h : AgreeOnUsed i a b) :
    ∃ i', decode b = .command i' ∧ ∀ s, exec i s = exec i' s := by
  obtain ⟨hrsv, hop, hfields⟩ := decode_eq_command_iff.mp hd
  rw [h.rsv] at hrsv
  rw [h.op] at hop
  obtain ⟨-, hvd, hva, hvb, -, himm⟩ := h
  cases i with
  | clmul vd va vb imm8 =>
    obtain ⟨rfl, rfl, rfl, rfl⟩ := hfields
    have hvb' : vbField a = vbField b := by simpa [vbMask] using hvb
    exact ⟨.clmul (vdField a) (vaField a) (vbField a) (immField b),
      decode_eq_command_iff.mpr ⟨hrsv, hop, hvd, hva, hvb', rfl⟩, exec_clmul_congr himm _ _ _⟩
  | _ => exact ⟨_, decode_eq_command_iff.mpr ⟨hrsv, hop, by simp_all [OperandsFrom, vbMask, immMask]⟩, fun _ => rfl⟩

/-- Settles O5: a legal word is a command, and the other word, which agrees on the bits it uses, does the same. -/
theorem unusedFieldsIgnored : Obligations.UnusedFieldsIgnored := by
  intro cmd cmd' s hl h
  obtain ⟨i, hd⟩ := (legal_iff_command cmd).mp hl
  obtain ⟨_, hop, _⟩ := decode_eq_command_iff.mp hd
  rw [hop, and_usedMask_eq_iff] at h
  obtain ⟨i', hd', hexec⟩ := exec_of_agreeOnUsed hd h
  simp only [performIssue, hd, hd', hexec]

end Sys2Proof.Machine

/-! SUPPORT. What every command leaves unchanged (30 R72). -/

namespace Sys2Proof.Machine

/-- Settles O34: a command records its reads, which touches nothing of the block, and writes `vd`. -/
theorem commandFrame : Obligations.CommandFrame := by
  intro i s t h
  have hwritten : t.isWritten (dest i) = true := (exec_dest i s t h).2
  rw [exec_eq] at h
  cases h
  refine ⟨fun r hr => ⟨?_, ?_⟩, hwritten, recordReads_status _ _, recordReads_illWord _ _, recordReads_config _ _,
    recordReads_pending _ _, recordReads_response _ _⟩
  · rw [cell_writeReg, if_neg hr.symm, recordReads_cell]
  · rw [isWritten_writeReg, if_neg hr.symm, recordReads_isWritten]

end Sys2Proof.Machine

/-! SUPPORT. The assembler (30 R77): its words are those of its commands, and a line out of range has none. -/

namespace Sys2Proof.Machine

/-- What the assembler checks of a line: registers, immediate and lane, where the line writes them. -/
theorem wellFormed_iff (l : AsmLine) :
    l.wellFormed = true ↔ (∀ r ∈ l.regs, r < 16) ∧ (∀ n, l.imm? = some n → n < 256) ∧ ∀ n, l.laneNo? = some n → n < 4 := by
  simp [AsmLine.wellFormed, AsmLine.regsInRange, AsmLine.immInRange, AsmLine.laneInRange, Option.all_eq_true, and_assoc]

theorem assembleWord_eq_some_iff {l : AsmLine} {cmd : Word} :
    assembleWord l = some cmd ↔ ∃ i, assemble l = some i ∧ encode i = cmd :=
  Option.map_eq_some_iff

theorem legal_encode (i : Instr) : legal (encode i) = true :=
  (legal_iff_command _).mpr ⟨i, decodeEncodeRoundTrip i⟩

/-- Settles O8: the opcodes listed are those of the commands that do not use the field. -/
theorem assembledWordsLegal : Obligations.AssembledWordsLegal := by
  intro l cmd h
  obtain ⟨i, _, rfl⟩ := assembleWord_eq_some_iff.mp h
  rw [opField_encode]
  refine ⟨legal_encode i, ?_, ?_⟩
  · cases i <;> simp [opcode, encode]
  · cases i <;> simp [opcode, encode]

/-- Settles O9: such a line is not well formed. -/
theorem outOfRangeImmediateRefused : Obligations.OutOfRangeImmediateRefused := by
  intro l n himm hn
  have hwf : ¬ l.wellFormed = true := fun hwf => by
    obtain ⟨_, himmRange, _⟩ := (wellFormed_iff l).mp hwf
    exact absurd (himmRange n himm) (by omega)
  rw [assembleWord, assemble, if_neg hwf, Option.map_none]

end Sys2Proof.Machine

/-! SUPPORT. The lanes of SHUF's result (41 R100) and its pseudo-instructions (30 R78). -/

namespace Sys2Proof.Machine

/-- Lane `i` of the result comes from `a` below lane 2 and from `b` above. -/
theorem lane_shuf (a b : V128) (imm8 : Byte) {i : Nat} (hi : i < 4) :
    lane 32 (shuf a b imm8) i = lane 32 (if i < 2 then a else b) (laneSel imm8 i) := by
  interval_cases i <;> simp [shuf]

/-- With one source every lane comes from it (41 R101). -/
theorem lane_shuf_self (a : V128) (imm8 : Byte) {i : Nat} (hi : i < 4) :
    lane 32 (shuf a a imm8) i = lane 32 a (laneSel imm8 i) := by
  rw [lane_shuf a a imm8 hi, ite_self]

/-- A selector is the field as 30 R70 writes it, `(code >> 2i) & 3`. -/
theorem laneSel_eq_shift (imm8 : Byte) (i : Nat) : laneSel imm8 i = ((imm8 >>> (2 * i)) &&& 3#8).toNat := by
  rw [laneSel, BitVec.extractLsb'_toNat, BitVec.toNat_and, BitVec.toNat_ushiftRight]
  exact (Nat.and_two_pow_sub_one_eq_mod _ 2).symm

theorem laneSel_identity {i : Nat} (hi : i < 4) : laneSel 0xE4#8 i = i := by
  interval_cases i <;> rfl

theorem laneSel_broadcast {n i : Nat} (hn : n < 4) (hi : i < 4) : laneSel (BitVec.ofNat 8 (n * 0x55)) i = n := by
  interval_cases n <;> interval_cases i <;> rfl

theorem toNat_lt_16 (r : RegIdx) : r.toNat < 16 := r.isLt

@[simp] theorem asReg_toNat (r : RegIdx) : asReg r.toNat = r := by
  simp [asReg]

theorem assemble_of_inRange {l : AsmLine} (hregs : ∀ r ∈ l.regs, r < 16) (himm : ∀ n, l.imm? = some n → n < 256)
    (hlane : ∀ n, l.laneNo? = some n → n < 4) : assemble l = coreInstr (expand l) :=
  if_pos ((wellFormed_iff l).mpr ⟨hregs, himm, hlane⟩)

theorem assemble_vmov (vd va : RegIdx) : assemble (.vmov vd.toNat va.toNat) = some (.shuf vd va va 0xE4#8) := by
  rw [assemble_of_inRange (by simp [AsmLine.regs, toNat_lt_16]) (by simp [AsmLine.imm?]) (by simp [AsmLine.laneNo?])]
  simp [expand, coreInstr]

theorem assemble_vbcast (vd va : RegIdx) {n : Nat} (hn : n < 4) :
    assemble (.vbcast vd.toNat va.toNat n) = some (.shuf vd va va (BitVec.ofNat 8 (n * 0x55))) := by
  rw [assemble_of_inRange (by simp [AsmLine.regs, toNat_lt_16]) (by simp [AsmLine.imm?]) (by simp [AsmLine.laneNo?, hn])]
  simp [expand, coreInstr]

theorem assemble_pshufd (vd va : RegIdx) (imm8 : Byte) :
    assemble (.pshufd vd.toNat va.toNat imm8.toNat) = some (.shuf vd va va imm8) := by
  have hcode : imm8.toNat < 256 := imm8.isLt
  rw [assemble_of_inRange (by simp [AsmLine.regs, toNat_lt_16]) (by simp [AsmLine.imm?, hcode]) (by simp [AsmLine.laneNo?])]
  simp [expand, coreInstr]

theorem shuf_identity (a : V128) : shuf a a 0xE4#8 = a := by
  have hlane {i : Nat} (hi : i < 4) : lane 32 (shuf a a 0xE4#8) i = lane 32 a i := by
    rw [lane_shuf_self a _ hi, laneSel_identity hi]
  exact ext_lanes32 _ _ (hlane (by decide)) (hlane (by decide)) (hlane (by decide)) (hlane (by decide))

theorem exec_shuf_self (vd va : RegIdx) (imm8 : Byte) (s : State) :
    ∃ t, exec (.shuf vd va va imm8) s = .next t ∧ t.cell vd = shuf (s.readReg va) (s.readReg va) imm8 :=
  ⟨_, exec_eq _ s, (exec_dest _ s _ (exec_eq _ s)).1⟩

/-- Settles O39: each line assembles to a SHUF of one source, whose lanes are those its code selects. -/
theorem shufPseudoInstructions : Obligations.ShufPseudoInstructions := by
  refine fun vd va s => ⟨?_, fun n hn => ?_, fun imm8 => ?_⟩
  · obtain ⟨t, ht, hcell⟩ := exec_shuf_self vd va 0xE4#8 s
    exact ⟨_, t, assemble_vmov vd va, ht, hcell.trans (shuf_identity _)⟩
  · obtain ⟨t, ht, hcell⟩ := exec_shuf_self vd va (BitVec.ofNat 8 (n * 0x55)) s
    refine ⟨_, t, assemble_vbcast vd va hn, ht, fun k hk => ?_⟩
    rw [hcell, lane_shuf_self _ _ hk, laneSel_broadcast hn hk]
  · obtain ⟨t, ht, hcell⟩ := exec_shuf_self vd va imm8 s
    refine ⟨_, t, assemble_pshufd vd va imm8, ht, fun k hk => ?_⟩
    rw [hcell, lane_shuf_self _ _ hk, laneSel_eq_shift]

end Sys2Proof.Machine

/-! SUPPORT. What every command completes with (30 R72): its function of the sources in `vd`, and nothing else written. -/

namespace Sys2Proof.Machine

/-- The record of a command gains exactly its unwritten sources (60 R172, log 4): the write of `vd` leaves it alone. -/
theorem exec_unwrittenRead {i : Instr} {s t : State} (h : exec i s = .next t) (r : RegIdx) :
    t.unwrittenRead r = (s.unwrittenRead r || (decide (r ∈ sources i) && !s.isWritten r)) := by
  rw [exec_eq] at h
  cases h
  refine (recordReads_unwrittenRead s (sources i) r).trans ?_
  cases s.isWritten r <;> simp

theorem exec_writesOnly {i : Instr} {s t : State} (h : exec i s = .next t) : WritesOnly (dest i) (sources i) s t := by
  obtain ⟨hothers, hwritten, hstatus, hill, -⟩ := commandFrame i s t h
  exact ⟨hothers, hwritten, hstatus, hill, exec_unwrittenRead h⟩

/-- Every command completes from every state, with its function of the sources as they were before the write. -/
theorem exec_completes (i : Instr) (s : State) :
    ∃ t, exec i s = .next t ∧ WritesOnly (dest i) (sources i) s t ∧
      t.cell (dest i) = resultOf s.config.cvtInvalid s.readReg i := by
  have h := exec_eq i s
  exact ⟨_, h, exec_writesOnly h, (exec_dest i s _ h).1⟩

end Sys2Proof.Machine

/-! SUPPORT. SHUF's result for every code (41 R100), and its named patterns (41 R101, R103). -/

namespace Sys2Proof.Machine

/-- Settles O37: SHUF completes with `shuf` of its sources, whose lanes are those the code's fields select. -/
theorem shufResult : Obligations.ShufResult := by
  intro vd va vb imm8 s
  obtain ⟨t, ht, hwrites, hcell⟩ := exec_completes (.shuf vd va vb imm8) s
  have hresult : t.cell vd = shuf (s.readReg va) (s.readReg vb) imm8 := hcell
  refine ⟨t, ht, hwrites, fun i hi => ?_⟩
  rw [hresult, lane_shuf _ _ _ hi, laneSel_eq_shift, apply_ite s.readReg]

/-- The source lane of lane `i` under a named pattern, as the table of 41 R103 lists it. -/
def Pattern.sourceLane (i : Nat) : Pattern → Nat
  | .identity => i
  | .swapPairs => i ^^^ 1
  | .swapHalves => i ^^^ 2
  | .rotateToward0 => (i + 1) % 4
  | .rotateToward3 => (i + 3) % 4
  | .reverse => 3 - i
  | .broadcast n => n.toNat

/-- A broadcast's code repeats `n` in its four fields. -/
theorem Pattern.code_broadcast (n : BitVec 2) : (Pattern.broadcast n).code = BitVec.ofNat 8 (n.toNat * 0x55) := by
  apply BitVec.eq_of_toNat_eq
  simp [Pattern.code]

/-- The fields of a pattern's code select the lanes of the table. -/
theorem laneSel_patternCode (p : Pattern) {i : Nat} (hi : i < 4) : laneSel p.code i = p.sourceLane i := by
  cases p with
  | identity => exact laneSel_identity hi
  | broadcast n =>
    rw [Pattern.code_broadcast]
    exact laneSel_broadcast n.isLt hi
  | _ => interval_cases i <;> rfl

/-- Settles O38: with one source every lane comes from it, and the code selects the lane the table lists. -/
theorem shufNamedPatterns : Obligations.ShufNamedPatterns := by
  intro vd va p s
  obtain ⟨t, ht, hcell⟩ := exec_shuf_self vd va p.code s
  have hlane {i : Nat} (hi : i < 4) : lane 32 (t.cell vd) i = lane 32 (s.readReg va) (p.sourceLane i) := by
    rw [hcell, lane_shuf_self _ _ hi, laneSel_patternCode p hi]
  exact ⟨t, ht, fun _ hi => hlane hi⟩

end Sys2Proof.Machine

/-! SUPPORT. The results of MOVMSKB and MOVMSKPS: the mask's bits, zero-extended (42 R110, R111, 10 R25). -/

namespace Sys2Proof.Machine

/-- A mask zero-extended to the register keeps its bits, and has 0 above them. -/
theorem getLsbD_setWidth_register {w : Nat} (hw : w ≤ 128) (mask : BitVec w) (k : Nat) :
    (mask.setWidth 128).getLsbD k = mask.getLsbD k := by
  rw [← BitVec.setWidth'_eq hw, BitVec.getLsbD_setWidth']

/-- Settles O40: MOVMSKB completes with the zero-extended mask, whose bits are the sign bits of the bytes. -/
theorem movmskbResult : Obligations.MovmskbResult := by
  intro vd va s
  obtain ⟨t, ht, hwrites, hcell⟩ := exec_completes (.movmskb vd va) s
  have hresult : t.cell vd = (movmskb (s.readReg va)).setWidth 128 := hcell
  refine ⟨t, ht, hwrites, fun k => ?_⟩
  rw [hresult, getLsbD_setWidth_register (by decide), getLsbD_movmskb]

/-- Settles O41: MOVMSKPS completes with the zero-extended mask, whose bits are the sign bits of the lanes. -/
theorem movmskpsResult : Obligations.MovmskpsResult := by
  intro vd va s
  obtain ⟨t, ht, hwrites, hcell⟩ := exec_completes (.movmskps vd va) s
  have hresult : t.cell vd = (movmskps (s.readReg va)).setWidth 128 := hcell
  refine ⟨t, ht, hwrites, fun k => ?_⟩
  rw [hresult, getLsbD_setWidth_register (by decide), getLsbD_movmskps]

end Sys2Proof.Machine

/-! SUPPORT. The carry-less product is the product of polynomials over GF(2) (43 R121, R122): a word is the polynomial whose
coefficients are its bits, and the laws of `clmul64` are those of the ring. -/

namespace Sys2Proof.Machine

open Polynomial

/-- A bit as an element of GF(2). -/
def bitValue (b : Bool) : ZMod 2 := if b then 1 else 0

@[simp] theorem bitValue_true : bitValue true = 1 := rfl
@[simp] theorem bitValue_false : bitValue false = 0 := rfl
@[simp] theorem bitValue_xor (a b : Bool) : bitValue (a ^^ b) = bitValue a + bitValue b := by revert a b; decide
@[simp] theorem bitValue_and (a b : Bool) : bitValue (a && b) = bitValue a * bitValue b := by revert a b; decide
theorem bitValue_decide (P : Prop) [Decidable P] : bitValue (decide P) = if P then 1 else 0 := by simp [bitValue]
@[simp] theorem bitValue_inj {a b : Bool} : bitValue a = bitValue b ↔ a = b := by revert a b; decide
theorem bitValue_eq_zero_iff {b : Bool} : bitValue b = 0 ↔ b = false := by revert b; decide

/-- The polynomial over GF(2) whose coefficients are the bits of `v`. -/
noncomputable def toPoly {w : Nat} (v : BitVec w) : (ZMod 2)[X] :=
  ∑ i ∈ Finset.range w, monomial i (bitValue (v.getLsbD i))

@[simp] theorem coeff_toPoly {w : Nat} (v : BitVec w) (k : Nat) : (toPoly v).coeff k = bitValue (v.getLsbD k) := by
  simp only [toPoly, finsetSum_coeff, coeff_monomial, Finset.sum_ite_eq', Finset.mem_range]
  by_cases h : k < w
  · rw [if_pos h]
  · rw [if_neg h, BitVec.getLsbD_of_ge v k (Nat.le_of_not_lt h), bitValue_false]

theorem toPoly_injective {w : Nat} : Function.Injective (toPoly (w := w)) := by
  intro a b h
  apply BitVec.eq_of_getLsbD_eq
  intro k _
  simpa using congrArg (·.coeff k) h

@[simp] theorem toPoly_zero (w : Nat) : toPoly 0#w = 0 := by
  ext k
  simp

@[simp] theorem toPoly_xor {w : Nat} (a b : BitVec w) : toPoly (a ^^^ b) = toPoly a + toPoly b := by
  ext k
  simp

/-- A zero-extended word shifted left, where no bit is lost. -/
theorem toPoly_setWidth_shiftLeft {w m n : Nat} (v : BitVec w) (h : w + n ≤ m) :
    toPoly (v.setWidth m <<< n) = toPoly v * X ^ n := by
  ext k
  rw [coeff_toPoly, coeff_mul_X_pow', coeff_toPoly, BitVec.getLsbD_shiftLeft, BitVec.getLsbD_setWidth]
  by_cases hn : n ≤ k
  · by_cases hw : k - n < w
    · simp [hn, show ¬ k < n by omega, show k < m by omega, show k - n < m by omega]
    · simp [hn, BitVec.getLsbD_of_ge v (k - n) (by omega)]
  · simp [hn, show k < n by omega]

theorem toPoly_one_shiftLeft {w j : Nat} (hj : j < w) : toPoly (1#w <<< j) = X ^ j := by
  ext k
  rw [coeff_toPoly, coeff_X_pow, ← BitVec.twoPow_eq, BitVec.getLsbD_twoPow, decide_eq_true hj, Bool.true_and, bitValue_decide,
    if_congr eq_comm rfl rfl]

/-- The rows below `n` are the product with the lowest `n` terms of `q`. -/
theorem toPoly_clmulRows (p q : Half) {n : Nat} (hn : n ≤ 64) :
    toPoly (clmulRows p q n) = toPoly p * ∑ j ∈ Finset.range n, monomial j (bitValue (q.getLsbD j)) := by
  induction n with
  | zero => simp [clmulRows]
  | succ n ih =>
    have hrow : toPoly (if q.getLsbD n then p.setWidth 128 <<< n else 0#128) =
        toPoly p * monomial n (bitValue (q.getLsbD n)) := by
      cases q.getLsbD n with
      | false => simp
      | true => simp [toPoly_setWidth_shiftLeft p (show 64 + n ≤ 128 by omega), X_pow_eq_monomial]
    rw [clmulRows, toPoly_xor, ih (by omega), hrow, Finset.sum_range_succ, mul_add]

/-- The carry-less product is the product of polynomials over GF(2). -/
@[simp] theorem toPoly_clmul64 (p q : Half) : toPoly (clmul64 p q) = toPoly p * toPoly q :=
  toPoly_clmulRows p q le_rfl

/-! ## The product bit by bit -/

theorem bitValue_xorAll (l : List Bool) : bitValue (xorAll l) = (l.map bitValue).sum := by
  induction l with
  | nil => rfl
  | cons b bs ih => rw [xorAll, bitValue_xor, ih, List.map_cons, List.sum_cons]

/-- A sum over a list of the numbers below `n` is the sum over their finite set, by definition. -/
theorem sum_map_range (n : Nat) (f : Nat → ZMod 2) : ((List.range n).map f).sum = ∑ i ∈ Finset.range n, f i := rfl

/-- A xor over two indices is a double sum in GF(2). -/
theorem bitValue_xorAll_flatMap (n : Nat) (f : Nat → Nat → Bool) :
    bitValue (xorAll ((List.range n).flatMap fun i => (List.range n).map (f i))) =
      ∑ i ∈ Finset.range n, ∑ j ∈ Finset.range n, bitValue (f i j) := by
  rw [bitValue_xorAll, List.map_flatMap, List.flatMap, List.sum_flatten, List.map_map, sum_map_range]
  simp only [Function.comp_apply, List.map_map, sum_map_range]

/-- A coefficient of a product is the convolution of the coefficients. -/
theorem coeff_toPoly_mul (p q : Half) (k : Nat) : (toPoly p * toPoly q).coeff k = bitValue (convBit p q k) := by
  rw [convBit, bitValue_xorAll_flatMap, toPoly, toPoly, Finset.sum_mul_sum]
  simp only [finsetSum_coeff, monomial_mul_monomial, coeff_monomial, bitValue_and, bitValue_decide, ite_mul, one_mul, zero_mul]

theorem getLsbD_clmul64 (p q : Half) (k : Nat) : (clmul64 p q).getLsbD k = convBit p q k := by
  rw [← bitValue_inj, ← coeff_toPoly, toPoly_clmul64, coeff_toPoly_mul]

theorem clmulRows_eq_foldl (p q : Half) (n : Nat) :
    clmulRows p q n =
      (List.range n).foldl (fun r j => if q.getLsbD j then r ^^^ (p.setWidth 128 <<< j) else r) 0#128 := by
  induction n with
  | zero => rfl
  | succ n ih =>
    rw [List.range_succ, List.foldl_append, ← ih, clmulRows]
    cases h : q.getLsbD n <;> simp [h]

/-- Settles O42: bit `k` is the coefficient of `x^k` in the product, and the rows are added in the order of the fold. -/
theorem clmulIsXorConvolution : Obligations.ClmulIsXorConvolution :=
  fun p q => ⟨fun k _ => getLsbD_clmul64 p q k, clmulRows_eq_foldl p q 64⟩

/-! ## CLMUL -/

theorem halfOf_eq_lane (sel : Bool) (v : V128) : halfOf sel v = lane 64 v (if sel then 1 else 0) := by
  cases sel <;> rfl

/-- Settles O43: CLMUL completes with the product of the selected halves, whose bits are the convolution. -/
theorem clmulResult : Obligations.ClmulResult := by
  intro vd va vb imm8 s
  obtain ⟨t, ht, hwrites, hcell⟩ := exec_completes (.clmul vd va vb imm8) s
  have hresult : t.cell vd = clmul64 (halfOf (imm8.getLsbD 0) (s.readReg va)) (halfOf (imm8.getLsbD 4) (s.readReg vb)) := hcell
  refine ⟨t, ht, hwrites, fun k _ => ?_⟩
  rw [hresult, getLsbD_clmul64, halfOf_eq_lane, halfOf_eq_lane]

/-! ## The laws of the product -/

theorem clmul64_comm (p q : Half) : clmul64 p q = clmul64 q p :=
  toPoly_injective (by simp [mul_comm])

theorem clmul64_zero (p : Half) : clmul64 p 0 = 0 :=
  toPoly_injective (by simp)

theorem clmul64_xor (p q r : Half) : clmul64 p (q ^^^ r) = clmul64 p q ^^^ clmul64 p r :=
  toPoly_injective (by simp [mul_add])

/-- Multiplying by a power of x shifts. -/
theorem clmul64_one_shiftLeft (p : Half) {j : Nat} (hj : j < 64) : clmul64 p (1#64 <<< j) = p.setWidth 128 <<< j :=
  toPoly_injective (by
    rw [toPoly_clmul64, toPoly_one_shiftLeft hj, toPoly_setWidth_shiftLeft p (by omega)])

theorem clmul64_one (p : Half) : clmul64 p 1 = p.setWidth 128 := by
  simpa using clmul64_one_shiftLeft p (j := 0) (by decide)

/-- A word has degree at most `n` when its bits above `n` are clear. -/
theorem natDegree_toPoly_le_iff {w : Nat} (v : BitVec w) (n : Nat) :
    (toPoly v).natDegree ≤ n ↔ ∀ k, n < k → v.getLsbD k = false := by
  simp only [natDegree_le_iff_coeff_eq_zero, coeff_toPoly, bitValue_eq_zero_iff]

/-- The bits above `m + n` of a product are clear when those above `m` and above `n` of its operands are. -/
theorem getLsbD_clmul64_of_lt {p q : Half} {m n k : Nat} (hp : ∀ k, m < k → p.getLsbD k = false)
    (hq : ∀ k, n < k → q.getLsbD k = false) (hk : m + n < k) : (clmul64 p q).getLsbD k = false := by
  have hdeg : (toPoly (clmul64 p q)).natDegree ≤ m + n := by
    rw [toPoly_clmul64]
    exact natDegree_mul_le_of_le ((natDegree_toPoly_le_iff p m).mpr hp) ((natDegree_toPoly_le_iff q n).mpr hq)
  exact (natDegree_toPoly_le_iff _ _).mp hdeg k hk

/-- The bit at the sum of two degrees is the product of the leading bits. -/
theorem getLsbD_clmul64_add {p q : Half} {m n : Nat} (hp : ∀ k, m < k → p.getLsbD k = false)
    (hq : ∀ k, n < k → q.getLsbD k = false) : (clmul64 p q).getLsbD (m + n) = (p.getLsbD m && q.getLsbD n) := by
  have hlead := coeff_mul_add_eq_of_natDegree_le ((natDegree_toPoly_le_iff p m).mpr hp) ((natDegree_toPoly_le_iff q n).mpr hq)
  rwa [← toPoly_clmul64, coeff_toPoly, coeff_toPoly, coeff_toPoly, ← bitValue_and, bitValue_inj] at hlead

theorem getLsbD_clmul64_127 (p q : Half) : (clmul64 p q).getLsbD 127 = false :=
  getLsbD_clmul64_of_lt (m := 63) (n := 63) (fun k hk => BitVec.getLsbD_of_ge p k hk)
    (fun k hk => BitVec.getLsbD_of_ge q k hk) (by decide)

/-- Squaring is the Frobenius map of GF(2)[x]: it substitutes `x^2` for `x`. -/
theorem getLsbD_clmul64_self (p : Half) (k : Nat) :
    (clmul64 p p).getLsbD k = (decide (2 ∣ k) && p.getLsbD (k / 2)) := by
  rw [← bitValue_inj, ← coeff_toPoly, toPoly_clmul64, ← sq, ← ZMod.expand_card, coeff_expand (by decide), coeff_toPoly,
    bitValue_and, bitValue_decide, ite_mul, one_mul, zero_mul]

/-- Settles O44: each law is that of the ring GF(2)[x]. -/
theorem clmulLaws : Obligations.ClmulLaws := by
  refine fun p q r => ⟨clmul64_comm p q, clmul64_zero p, clmul64_one p, clmul64_xor p q r,
    fun j hj => clmul64_one_shiftLeft p hj, getLsbD_clmul64_127 p q, fun m n hpm hp hqn hq => ⟨?_, fun k hk => ?_⟩,
    fun i _ => ⟨?_, ?_⟩⟩
  · rw [getLsbD_clmul64_add hp hq, hpm, hqn, Bool.and_self]
  · exact getLsbD_clmul64_of_lt hp hq hk
  · simp [getLsbD_clmul64_self]
  · rw [getLsbD_clmul64_self, decide_eq_false (by omega), Bool.false_and]

end Sys2Proof.Machine

/-! SUPPORT. The S-box against its formula (44 R130, R131): the affine map `A` is inverted, so the table gives the only byte
that can be the inverse of `x`, and it is. -/

namespace Sys2Proof.Machine

/-- The inverse of `A`: with `A(0) = 0x63` taken off, bit `i` sums the bits 2, 5 and 7 places up, round the byte. -/
def sboxAffineInv (z : Byte) : Byte :=
  gather 8 (fun i => (z ^^^ 0x63#8).getLsbD ((i + 2) % 8) ^^ (z ^^^ 0x63#8).getLsbD ((i + 5) % 8) ^^
    (z ^^^ 0x63#8).getLsbD ((i + 7) % 8)) 8

/-- A byte is one of 256 numerals. The kernel evaluates the model much faster at a numeral than at the values of `Byte` that
`decide` lists. -/
theorem forall_byte_of_forall_lt {P : Byte → Prop} (h : ∀ n < 256, P (BitVec.ofNat 8 n)) (x : Byte) : P x := by
  simpa using h x.toNat x.isLt

theorem sboxAffine_sboxAffineInv (z : Byte) : sboxAffine (sboxAffineInv z) = z := by
  revert z
  refine forall_byte_of_forall_lt ?_
  decide +kernel

/-- The byte that `A` takes to `SBOX[x]` is the inverse of `x`. -/
theorem gfMul_sboxAffineInv_sbox (x : Byte) : x ≠ 0 → gfMul x (sboxAffineInv (sbox x)) = 1 := by
  revert x
  refine forall_byte_of_forall_lt ?_
  decide +kernel

/-- Settles O45: `y` is the byte that `A` takes to `SBOX[x]`. -/
theorem sboxIsAffineOfInverse : Obligations.SboxIsAffineOfInverse :=
  ⟨by decide, fun x hx => ⟨sboxAffineInv (sbox x), gfMul_sboxAffineInv_sbox x hx, (sboxAffine_sboxAffineInv _).symm⟩⟩

end Sys2Proof.Machine

/-! SUPPORT. The rounds byte by byte, at row `r` of column `c` (44 R132, R133). -/

namespace Sys2Proof.Machine

/-- Settles O46: both orders give byte `i` the substitute of byte `SR[i]`. -/
theorem subBytesShiftRowsCommute : Obligations.SubBytesShiftRowsCommute := by
  refine fun s => ext_bytes _ _ fun i hi => ?_
  rw [byte_subShift s i hi, byte_shiftRows _ i hi, byte_subBytes s _ (srTable_lt i hi)]

/-- `ShiftRows` takes row `r` of column `c` from column `c + r`. -/
theorem srTable_column_row {c r : Nat} (hc : c < 4) (hr : r < 4) : srTable.getD (4 * c + r) 0 = 4 * ((c + r) % 4) + r := by
  interval_cases c <;> interval_cases r <;> rfl

/-- Row `r` of column `c` after `ShiftRows` and `SubBytes`. -/
theorem byte_subShift_column_row (s : V128) {c r : Nat} (hc : c < 4) (hr : r < 4) :
    byte (subBytes (shiftRows s)) (4 * c + r) = sbox (byte s (4 * ((c + r) % 4) + r)) := by
  rw [byte_subShift s _ (by omega), srTable_column_row hc hr]

theorem byte_aesLastRound (s k : V128) {c r : Nat} (hc : c < 4) (hr : r < 4) :
    byte (aesLastRound s k) (4 * c + r) = sbox (byte s (4 * ((c + r) % 4) + r)) ^^^ byte k (4 * c + r) := by
  rw [aesLastRound, addRoundKey, byte_xor, byte_subShift_column_row s hc hr]

/-- Settles O48: AESENCLAST completes with the last round of its sources, under every `AES_IMPL`. -/
theorem aesenclastResult : Obligations.AesenclastResult := by
  intro vd va vb s
  obtain ⟨t, ht, hwrites, hcell⟩ := exec_completes (.aesenclast vd va vb) s
  have hresult : t.cell vd = aesLastRound (s.readReg va) (s.readReg vb) := hcell
  refine ⟨t, ht, hwrites, fun c r hc hr => ?_⟩
  rw [hresult, byte_aesLastRound _ _ hc hr]

/-! ## The mixing matrix (44 R131, R133) -/

theorem gfMul_two (a : Byte) : gfMul a 2 = xtime a := by
  simp [gfMul, List.range_succ]

theorem gfMul_three (a : Byte) : gfMul a 3 = mul3 a := by
  simp [gfMul, mul3, List.range_succ, BitVec.xor_comm]

/-- Row `r` of column `c` after the round; row 0 is written with the same `+ 0` as the other rows' offsets. -/
theorem byte_aesRound (s k : V128) {c r : Nat} (hc : c < 4) (hr : r < 4) :
    byte (aesRound s k) (4 * c + r) =
      mixRow (sbox (byte s (4 * ((c + 0) % 4) + 0))) (sbox (byte s (4 * ((c + 1) % 4) + 1)))
        (sbox (byte s (4 * ((c + 2) % 4) + 2))) (sbox (byte s (4 * ((c + 3) % 4) + 3))) r ^^^ byte k (4 * c + r) := by
  have hcolumn : (4 * c + r) / 4 = c := by omega
  have hrow : (4 * c + r) % 4 = r := by omega
  have hsub {q : Nat} (hq : q < 4) := byte_subShift_column_row s hc hq
  rw [aesRound, addRoundKey, byte_xor, byte_mixColumns _ _ (by omega), hcolumn, hrow, ← hsub (by decide),
    ← hsub (by decide), ← hsub (by decide), ← hsub (by decide)]
  rfl

/-- Settles O47: AESENC completes with the round of its sources, under every `AES_IMPL`; each row of the matrix is one of
`mixRow`. -/
theorem aesencResult : Obligations.AesencResult := by
  intro vd va vb s
  obtain ⟨t, ht, hwrites, hcell⟩ := exec_completes (.aesenc vd va vb) s
  have hresult : t.cell vd = aesRound (s.readReg va) (s.readReg vb) := hcell
  refine ⟨t, ht, hwrites, fun c hc => ?_⟩
  simp only [hresult, gfMul_two, gfMul_three]
  have hrow {r : Nat} (hr : r < 4) := byte_aesRound (s.readReg va) (s.readReg vb) hc hr
  exact ⟨hrow (r := 0) (by decide), hrow (r := 1) (by decide), hrow (r := 2) (by decide), hrow (r := 3) (by decide)⟩

end Sys2Proof.Machine

/-! SUPPORT. The key-expansion assist byte by byte (44 R135, R138). -/

namespace Sys2Proof.Machine

/-- `SubWord` substitutes each byte. -/
theorem extract_subWord (w : Word) {r : Nat} (hr : r < 4) :
    (subWord w).extractLsb' (8 * r) 8 = sbox (w.extractLsb' (8 * r) 8) := by
  rw [subWord, extract_append4 _ _ _ _ r hr]
  interval_cases r <;> rfl

/-- `RotWord` moves each byte down by one, byte 0 to byte 3. -/
theorem extract_rotWord (w : Word) {r : Nat} (hr : r < 4) :
    (rotWord w).extractLsb' (8 * r) 8 = w.extractLsb' (8 * ((r + 1) % 4)) 8 := by
  apply BitVec.eq_of_getLsbD_eq
  intro k hk
  rw [rotWord, BitVec.getLsbD_extractLsb', BitVec.getLsbD_extractLsb', BitVec.getLsbD_rotateRight]
  by_cases hlast : r = 3
  · simp [hlast, hk, show 24 + k < 32 by omega]
  · simp [hk, show (r + 1) % 4 = r + 1 by omega, show 8 * r + k < 24 by omega, Nat.mul_succ, Nat.add_assoc, Nat.add_left_comm]

/-- The round constant is in the low byte. -/
theorem extract_rcon (imm8 : Byte) {r : Nat} (hr : r < 4) :
    (rcon imm8).extractLsb' (8 * r) 8 = if r = 0 then imm8 else 0 := by
  apply BitVec.eq_of_getLsbD_eq
  intro k hk
  rw [rcon, BitVec.getLsbD_extractLsb', BitVec.getLsbD_setWidth]
  by_cases hlow : r = 0
  · simp [hlow, hk, show k < 32 by omega]
  · simp [hlow, BitVec.getLsbD_of_ge imm8 (8 * r + k) (by omega)]

/-- Lanes 0 and 2 are the substituted words 1 and 3. -/
theorem lane_aesKeyAssist_even (key : V128) (imm8 : Byte) {h : Nat} (hh : h < 2) :
    lane 32 (aesKeyAssist key imm8) (2 * h) = subWord (lane 32 key (2 * h + 1)) := by
  interval_cases h <;> simp [aesKeyAssist]

/-- Lanes 1 and 3 are those rotated, with the round constant. -/
theorem lane_aesKeyAssist_odd (key : V128) (imm8 : Byte) {h : Nat} (hh : h < 2) :
    lane 32 (aesKeyAssist key imm8) (2 * h + 1) = rotWord (subWord (lane 32 key (2 * h + 1))) ^^^ rcon imm8 := by
  interval_cases h <;> simp [aesKeyAssist]

theorem byte_aesKeyAssist_even (key : V128) (imm8 : Byte) {h r : Nat} (hh : h < 2) (hr : r < 4) :
    byte (aesKeyAssist key imm8) (4 * (2 * h) + r) = sbox (byte key (4 * (2 * h + 1) + r)) := by
  rw [byte_eq_lane _ _ _ hr, byte_eq_lane _ _ _ hr, lane_aesKeyAssist_even key imm8 hh, extract_subWord _ hr]

theorem byte_aesKeyAssist_odd (key : V128) (imm8 : Byte) {h r : Nat} (hh : h < 2) (hr : r < 4) :
    byte (aesKeyAssist key imm8) (4 * (2 * h + 1) + r) =
      sbox (byte key (4 * (2 * h + 1) + (r + 1) % 4)) ^^^ (if r = 0 then imm8 else 0) := by
  have hr' : (r + 1) % 4 < 4 := Nat.mod_lt _ (by decide)
  rw [byte_eq_lane _ _ _ hr, byte_eq_lane _ _ _ hr', lane_aesKeyAssist_odd key imm8 hh, BitVec.extractLsb'_xor,
    extract_rotWord _ hr, extract_subWord _ hr', extract_rcon imm8 hr]

/-- Settles O49: AESKEYGEN completes with the assist of its source; byte `r` of lane `2h` is byte `8h + r`. -/
theorem aeskeygenResult : Obligations.AeskeygenResult := by
  intro vd va imm8 s
  obtain ⟨t, ht, hwrites, hcell⟩ := exec_completes (.aeskeygen vd va imm8) s
  have hresult : t.cell vd = aesKeyAssist (s.readReg va) imm8 := hcell
  refine ⟨t, ht, hwrites, fun h r hh hr => ?_⟩
  rw [hresult, show 8 * h + 4 = 4 * (2 * h + 1) by omega, show 8 * h = 4 * (2 * h) by omega]
  exact ⟨byte_aesKeyAssist_even _ imm8 hh hr, byte_aesKeyAssist_odd _ imm8 hh hr⟩

end Sys2Proof.Machine

/-! SUPPORT. The unit's integer algorithm is R154's over exact rationals (45 R151, R154). -/

namespace Sys2Proof.Machine

theorem ceil_eq_ite_fract (x : ℚ) : ⌈x⌉ = if Int.fract x = 0 then ⌊x⌋ else ⌊x⌋ + 1 := by
  split
  case isTrue h => rw [← Int.self_sub_floor, sub_eq_zero] at h; rw [h, Int.ceil_intCast, Int.floor_intCast]
  case isFalse h => rw [Int.ceil_eq_floor_add_one_iff_notMem, ← Int.fract_eq_zero_iff]; exact h

/-- R154's difference to the floor is the fractional part. -/
theorem rneExact_eq_ite_fract (x : ℚ) :
    rneExact x = if Int.fract x > 1 / 2 then ⌈x⌉ else if Int.fract x < 1 / 2 then ⌊x⌋ else
      if ⌊x⌋ % 2 = 0 then ⌊x⌋ else ⌈x⌉ := rfl

/-- The quotient is the floor and the remainder, over `den`, the difference to it. -/
theorem roundNearestEven_eq_rneExact (num : Int) {den : Nat} (hden : 0 < den) :
    roundNearestEven num den = rneExact (num / den) := by
  have hpos : (0 : ℚ) < den := mod_cast hden
  have hzero : ((num % den : ℤ) : ℚ) / den = 0 ↔ num % den = 0 := by
    rw [div_eq_zero_iff, or_iff_left hpos.ne', Int.cast_eq_zero]
  have habove : ((num % den : ℤ) : ℚ) / den > 1 / 2 ↔ 2 * (num % den) > den := by
    rw [gt_iff_lt, div_lt_div_iff₀ two_pos hpos, one_mul, mul_comm]; norm_cast
  have hbelow : ((num % den : ℤ) : ℚ) / den < 1 / 2 ↔ 2 * (num % den) < den := by
    rw [div_lt_div_iff₀ hpos two_pos, one_mul, mul_comm]; norm_cast
  simp only [roundNearestEven, rneExact_eq_ite_fract, ceil_eq_ite_fract, Int.fract_div_intCast_eq_div_intCast_mod,
    Rat.floor_intCast_div_natCast, hzero, habove, hbelow]

/-- The value of a lane from the fields the unit reads. -/
theorem f32Value_eq (f : Word) :
    f32Value f = if f32Exp f = 255 then none else
      if f32Exp f = 0 then some ((if f32Sign f then -1 else 1) * (2 : ℚ) ^ (-126 : ℤ) * (f32Frac f / 2 ^ 23))
      else some ((if f32Sign f then -1 else 1) * (2 : ℚ) ^ ((f32Exp f : ℤ) - 127) * (1 + f32Frac f / 2 ^ 23)) := rfl

/-- A lane with exponent 255 is a NaN or an infinity: it has no value and its conversion is invalid. -/
theorem convert_of_exp_max {f : Word} (h : f32Exp f = 255) : f32Value f = none ∧ ∀ k, cvtRne k f = k := by
  refine ⟨if_pos h, fun k => ?_⟩
  rw [cvtRne, readF32, if_pos h]
  by_cases hfrac : f32Frac f ≠ 0
  · rw [if_pos hfrac]
  · rw [if_neg hfrac]

/-- The weight of the whole significand, from that of its lowest bit. -/
theorem two_zpow_sub_127 (e : ℤ) : (2 : ℚ) ^ (e - 127) = 2 ^ (e - 150) * 2 ^ 23 := by
  rw [← zpow_natCast, ← zpow_add₀ two_ne_zero]
  congr 1
  omega

/-- Any other lane is `±m * 2^(x - 150)` with `m` of 24 bits, which the unit reads as a fraction of integers. -/
theorem readF32_of_exp {f : Word} (h : f32Exp f ≠ 255) :
    ∃ (sgn : ℤ) (m x : ℕ), |sgn| = 1 ∧ m < 2 ^ 24 ∧ f32Value f = some (sgn * m * (2 : ℚ) ^ ((x : ℤ) - 150)) ∧
      readF32 f = .finite (sgn * (m * 2 ^ (x - 150) : ℕ)) (2 ^ (150 - x)) := by
  have hfrac : f32Frac f < 2 ^ 23 := BitVec.isLt _
  refine ⟨if f32Sign f then -1 else 1, if f32Exp f = 0 then f32Frac f else 2 ^ 23 + f32Frac f,
    if f32Exp f = 0 then 1 else f32Exp f, ?_, ?_, ?_, if_neg h⟩
  · split <;> rfl
  · split <;> omega
  · rw [f32Value_eq, if_neg h]
    by_cases he : f32Exp f = 0
    · simp only [if_pos he, show (-126 : ℤ) = 1 - 127 from rfl, two_zpow_sub_127]
      push_cast
      ring_nf
    · simp only [if_neg he, two_zpow_sub_127]
      push_cast
      ring_nf

/-- One of the two powers of two is `2^0`, so the fraction has the value of the lane. -/
theorem fraction_eq_value (sgn : ℤ) (m x : ℕ) :
    ((sgn * (m * 2 ^ (x - 150) : ℕ) : ℤ) : ℚ) / (2 ^ (150 - x) : ℕ) = sgn * m * (2 : ℚ) ^ ((x : ℤ) - 150) := by
  rcases le_total x 150 with hx | hx
  · obtain ⟨n, hn⟩ := Nat.exists_eq_add_of_le hx
    rw [show x - 150 = 0 by omega, show 150 - x = n by omega, show (x : ℤ) - 150 = -(n : ℤ) by omega, zpow_neg, zpow_natCast]
    push_cast
    ring
  · obtain ⟨n, hn⟩ := Nat.exists_eq_add_of_le hx
    rw [show x - 150 = n by omega, show 150 - x = 0 by omega, show (x : ℤ) - 150 = (n : ℤ) by omega, zpow_natCast]
    push_cast
    ring

/-- The conversion of a lane that has a value (45 R154, R156). -/
theorem cvtRne_of_value {f : Word} {x : ℚ} (h : f32Value f = some x) (k : Word) :
    cvtRne k f = if rneExact x < -2 ^ 31 ∨ rneExact x > 2 ^ 31 - 1 then k else BitVec.ofInt 32 (rneExact x) := by
  by_cases he : f32Exp f = 255
  · rw [(convert_of_exp_max he).1] at h
    cases h
  · obtain ⟨sgn, m, e, -, -, hvalue, hread⟩ := readF32_of_exp he
    rw [hvalue, ← fraction_eq_value] at h
    cases h
    rw [cvtRne, hread, ← roundNearestEven_eq_rneExact _ (Nat.two_pow_pos _)]

theorem cvtRne_of_no_value {f : Word} (h : f32Value f = none) (k : Word) : cvtRne k f = k := by
  by_cases he : f32Exp f = 255
  · exact (convert_of_exp_max he).2 k
  · obtain ⟨_, _, _, -, -, hvalue, -⟩ := readF32_of_exp he
    rw [h] at hvalue
    cases hvalue

/-- The unit's conversion is R154's over exact rationals. -/
theorem cvtRne_eq_cvtExact (k f : Word) : cvtRne k f = cvtExact k f := by
  unfold cvtExact
  cases h : f32Value f with
  | none => exact cvtRne_of_no_value h k
  | some x => exact cvtRne_of_value h k

/-- Settles O50: CVTPS2DQ completes with its packed lane conversions, each the exact one. -/
theorem cvtps2dqResult : Obligations.Cvtps2dqResult := by
  intro vd va s
  obtain ⟨t, ht, hwrites, hcell⟩ := exec_completes (.cvtps2dq vd va) s
  have hresult : t.cell vd = pack 32 (fun i => cvtRne s.config.cvtInvalid (lane 32 (s.readReg va) i)) := hcell
  refine ⟨t, ht, hwrites, fun i hi => ?_⟩
  rw [hresult, lane_pack 32 (by decide) (by decide) _ i hi, cvtRne_eq_cvtExact]

/-- A lane zero-extended to the register is lane 0. -/
theorem lane_zero_setWidth (x : Word) : lane 32 (x.setWidth 128) 0 = x := by
  apply BitVec.eq_of_getLsbD_eq
  intro k hk
  rw [getLsbD_lane, getLsbD_setWidth_register (by decide)]
  simp [hk]

/-- The other lanes are 0. -/
theorem lane_setWidth_of_pos (x : Word) {i : Nat} (hi : 0 < i) : lane 32 (x.setWidth 128) i = 0#32 := by
  apply BitVec.eq_of_getLsbD_eq
  intro k hk
  rw [getLsbD_lane, getLsbD_setWidth_register (by decide), BitVec.getLsbD_of_ge x _ (by nlinarith)]
  simp

/-- Settles O51: CVTSS2SI completes with the zero-extended conversion of lane 0, the exact one. -/
theorem cvtss2siResult : Obligations.Cvtss2siResult := by
  intro vd va s
  obtain ⟨t, ht, hwrites, hcell⟩ := exec_completes (.cvtss2si vd va) s
  have hresult : t.cell vd = (cvtRne s.config.cvtInvalid (lane 32 (s.readReg va) 0)).setWidth 128 := hcell
  refine ⟨t, ht, hwrites, ?_, fun i hi _ => ?_⟩
  · rw [hresult, lane_zero_setWidth, cvtRne_eq_cvtExact]
  · rw [hresult, lane_setWidth_of_pos _ hi]

end Sys2Proof.Machine

/-! SUPPORT. R154's integer is the nearest one, even at a tie (45 R150), and which values it fits in 32 bits for (45 R155). -/

namespace Sys2Proof.Machine

/-- `n` is nearest to `x`, and even at a tie (45 R150). -/
def IsNearestEven (x : ℚ) (n : ℤ) : Prop := |x - n| ≤ 1 / 2 ∧ (|x - n| = 1 / 2 → n % 2 = 0)

/-- Two integers that are nearest to `x` are one apart at most, and one apart only at a tie, when both are even. -/
theorem IsNearestEven.unique {x : ℚ} {m n : ℤ} (hm : IsNearestEven x m) (hn : IsNearestEven x n) : m = n := by
  wlog hle : m ≤ n generalizing m n
  · exact (this hn hm (by omega)).symm
  obtain ⟨hmdist, hmeven⟩ := hm
  obtain ⟨hndist, hneven⟩ := hn
  rw [abs_le] at hmdist hndist
  have hgap : (n : ℚ) ≤ m + 1 := by linarith
  norm_cast at hgap
  by_contra hne
  obtain rfl : n = m + 1 := by omega
  push_cast at hndist hneven
  have hbelow : x - m = 1 / 2 := by linarith
  have habove : x - (m + 1) = -(1 / 2) := by linarith
  have := hmeven (by rw [hbelow]; norm_num)
  have := hneven (by rw [habove]; norm_num)
  omega

theorem IsNearestEven.of_lt {x : ℚ} {n : ℤ} (h : |x - n| < 1 / 2) : IsNearestEven x n :=
  ⟨h.le, fun htie => absurd htie h.ne⟩

/-- The floor is `fract x` away and, if that is not 0, the ceiling is `1 - fract x` away. -/
theorem isNearestEven_rneExact (x : ℚ) : IsNearestEven x (rneExact x) := by
  have hfloor : |x - ⌊x⌋| = Int.fract x := by rw [Int.self_sub_floor, Int.abs_fract]
  have hceil (h : Int.fract x ≠ 0) : |x - ⌈x⌉| = 1 - Int.fract x := by
    rw [abs_sub_comm, Int.ceil_sub_self_eq h, abs_of_pos (sub_pos.mpr (Int.fract_lt_one x))]
  rw [rneExact_eq_ite_fract]
  split_ifs with habove hbelow heven
  · exact .of_lt (by rw [hceil (by linarith)]; linarith)
  · exact .of_lt (by rwa [hfloor])
  · exact ⟨hfloor.trans_le (by linarith), fun _ => heven⟩
  · have htie : Int.fract x ≠ 0 := by linarith
    have hsucc : ⌈x⌉ = ⌊x⌋ + 1 := by rw [ceil_eq_ite_fract, if_neg htie]
    exact ⟨(hceil htie).trans_le (by linarith), fun _ => by omega⟩

/-- The conversion is R154's integer where that fits in signed 32 bits. -/
theorem cvtRne_eq_ite_fits {f : Word} {x : ℚ} (h : f32Value f = some x) (k : Word) :
    cvtRne k f = if -2 ^ 31 ≤ rneExact x ∧ rneExact x ≤ 2 ^ 31 - 1 then BitVec.ofInt 32 (rneExact x) else k := by
  rw [cvtRne_of_value h, ← ite_not]
  exact if_congr (by omega) rfl rfl

/-- Settles O52: `rneExact x` is the only integer that is nearest to `x` and even at a tie. -/
theorem conversionRoundsToNearestEven : Obligations.ConversionRoundsToNearestEven := fun k _ x hx =>
  ⟨rneExact x, ⟨isNearestEven_rneExact x, cvtRne_eq_ite_fits hx k⟩, fun _ ⟨hnearest, _⟩ =>
    IsNearestEven.unique hnearest (isNearestEven_rneExact x)⟩

/-! ## The valid inputs (45 R155) -/

/-- From exponent 150 on a lane is an integer; below, its 24 bits are at least halved. -/
theorem value_integer_or_abs_lt {f : Word} {x : ℚ} (h : f32Value f = some x) : (∃ n : ℤ, x = n) ∨ |x| < 2 ^ 23 := by
  have he : f32Exp f ≠ 255 := fun he => by simp [(convert_of_exp_max he).1] at h
  obtain ⟨sgn, m, e, hsgn, hm, hvalue, -⟩ := readF32_of_exp he
  obtain rfl : x = sgn * m * (2 : ℚ) ^ ((e : ℤ) - 150) := Option.some.inj (h.symm.trans hvalue)
  rcases le_or_gt 150 e with hbig | hsmall
  · obtain ⟨n, rfl⟩ := Nat.exists_eq_add_of_le hbig
    refine .inl ⟨sgn * m * 2 ^ n, ?_⟩
    rw [show ((150 + n : ℕ) : ℤ) - 150 = n by omega, zpow_natCast]
    push_cast
    rfl
  · right
    have hhalf : (2 : ℚ) ^ ((e : ℤ) - 150) ≤ 2 ^ (-1 : ℤ) := zpow_le_zpow_right₀ one_le_two (by omega)
    have hm' : (m : ℚ) < 2 ^ 24 := mod_cast hm
    have hsgn' : |(sgn : ℚ)| = 1 := mod_cast hsgn
    calc |sgn * m * (2 : ℚ) ^ ((e : ℤ) - 150)|
        = m * (2 : ℚ) ^ ((e : ℤ) - 150) := by rw [abs_mul, abs_mul, hsgn', one_mul, Nat.abs_cast, abs_of_pos (by positivity)]
      _ ≤ m * 2 ^ (-1 : ℤ) := by gcongr
      _ < 2 ^ 24 * 2 ^ (-1 : ℤ) := by gcongr
      _ = 2 ^ 23 := by norm_num

theorem rneExact_intCast (n : ℤ) : rneExact n = n :=
  (isNearestEven_rneExact n).unique (.of_lt (by simp))

/-- No lane lies between the largest 32-bit integer and `2^31`, or within one half below `-2^31`: a lane of that size is
an integer. -/
theorem rneExact_fits_iff {f : Word} {x : ℚ} (h : f32Value f = some x) :
    -2 ^ 31 ≤ rneExact x ∧ rneExact x ≤ 2 ^ 31 - 1 ↔ -2 ^ 31 ≤ x ∧ x < 2 ^ 31 := by
  rcases value_integer_or_abs_lt h with ⟨n, rfl⟩ | hx
  · rw [rneExact_intCast, Int.le_sub_one_iff]
    norm_cast
  · obtain ⟨hlo, hhi⟩ := abs_lt.mp hx
    obtain ⟨hnlo, hnhi⟩ := abs_le.mp (isNearestEven_rneExact x).1
    have hfits : -2 ^ 31 ≤ (rneExact x : ℚ) ∧ (rneExact x : ℚ) ≤ 2 ^ 31 - 1 := ⟨by linarith, by linarith⟩
    exact iff_of_true (mod_cast hfits) ⟨by linarith, by linarith⟩

/-- Settles O53: outside the range, as without a value, the conversion is `CVT_INVALID` itself, which differs from another. -/
theorem validConversionInputs : Obligations.ValidConversionInputs := by
  intro f
  have hdepends (hinvalid : ∀ k, cvtRne k f = k) : ¬ ∀ k k' : Word, cvtRne k f = cvtRne k' f := fun h => by
    simpa [hinvalid] using h 0 1
  cases hvalue : f32Value f with
  | none => exact iff_of_false (hdepends (cvtRne_of_no_value hvalue)) (by simp)
  | some x =>
    simp only [Option.some.injEq, exists_eq_left', ← rneExact_fits_iff hvalue]
    by_cases hfits : -2 ^ 31 ≤ rneExact x ∧ rneExact x ≤ 2 ^ 31 - 1
    · exact iff_of_true (fun k k' => by simp only [cvtRne_eq_ite_fits hvalue, if_pos hfits]) hfits
    · exact iff_of_false (hdepends fun k => by rw [cvtRne_eq_ite_fits hvalue, if_neg hfits]) hfits

end Sys2Proof.Machine

/-! SUPPORT. The exceptions (60_exceptions.md): nothing stops the block, what an illegal command does, and the record of
unwritten reads. -/

namespace Sys2Proof.Machine

/-- Every transaction completes and leaves the queue as it stands: a command by `exec_eq`, an illegal one in `raiseIllegal`,
and no other transaction can fail. -/
theorem perform_completes (tr : Transaction) (s : State) : ∃ t, perform tr s = .next t ∧ t.pending = s.pending := by
  cases tr with
  | issue cmd =>
    rw [perform, performIssue]
    cases decode cmd with
    | command i => exact ⟨_, exec_eq i s, recordReads_pending _ _⟩
    | illegal e => exact ⟨_, rfl, rfl⟩
  | readVec i => exact ⟨_, rfl, recordReads_pending _ _⟩
  | reset => exact ⟨_, rfl, rfl⟩
  | writeVec i x => exact ⟨_, rfl, rfl⟩
  | readStatus => exact ⟨_, rfl, rfl⟩
  | readIllWord => exact ⟨_, rfl, rfl⟩

/-- Settles O13: a step is idle or one transaction, which completes. -/
theorem stepNeverStops : Obligations.StepNeverStops := by
  intro s
  cases hp : s.pending with
  | nil => exact ⟨s, step_idle hp⟩
  | cons tr rest =>
    obtain ⟨t, ht, -⟩ := perform_completes tr (s.taking rest)
    exact ⟨t, (step_of_pending hp).trans ht⟩

/-- Settles O15. -/
theorem idleHoldsState : Obligations.IdleHoldsState :=
  fun _ hp => step_idle hp

/-- Settles O12: the cause is `noFault` exactly for the words the decoder gives a command for. -/
theorem causeCodes : Obligations.CauseCodes := by
  intro cmd
  cases hl : legal cmd with
  | true =>
    obtain ⟨i, hd⟩ := (legal_iff_command cmd).mp hl
    rw [causeOf, hd]
    rfl
  | false =>
    rw [(causeOf_eq_illegalCommand_iff cmd).mpr hl]
    rfl

/-! ## IllegalCommand (60 R171) -/

/-- Setting ILL touches no other bit of STATUS. -/
theorem getLsbD_statusWithIll_of_pos (status : Word) {k : Nat} (hk : 0 < k) :
    (statusWithIll status).getLsbD k = status.getLsbD k := by
  simp [statusWithIll, BitVec.getLsbD_one, hk.ne']

/-- Only `Reset` clears ILL: an illegal `Issue` sets it, and nothing else touches STATUS. -/
theorem reset_pending_of_ill_cleared {s t : State} (h : step s = .next t) (hbefore : s.ill = true) (hafter : t.ill = false) :
    ∃ rest, s.pending = .reset :: rest := by
  rcases step_status_cases h with hreset | ⟨rest, cmd, hp, hl⟩ | ⟨hstatus, _⟩
  · exact hreset
  · rw [step_issue_illegal hp hl] at h
    cases h
    exact absurd hafter (by simp)
  · have hsame : t.ill = s.ill := by rw [State.ill, State.ill, hstatus]
    exact absurd hsame (by simp [hbefore, hafter])

/-- Settles O11: the step is `raiseIllegal`, which touches STATUS and ILLWORD alone. -/
theorem illegalCommandRecorded : Obligations.IllegalCommandRecorded := by
  refine ⟨fun s cmd rest hp hl => ?_, fun s t h => reset_pending_of_ill_cleared h⟩
  have hillWord : ((s.taking rest).raiseIllegal cmd).illWord = if s.ill = false then cmd else s.illWord := by
    have hill : (s.taking rest).ill = s.ill := rfl
    rw [State.raiseIllegal_illWord, hill, State.taking_illWord]
    cases s.ill <;> rfl
  exact ⟨_, step_issue_illegal hp hl, raiseIllegal_ill _ _, hillWord, fun _ hk => getLsbD_statusWithIll_of_pos _ hk,
    rfl, rfl, rfl, rfl, rfl, rfl, rfl⟩

/-! ## UnwrittenRead (60 R172) -/

/-- Recording further reads clears none. -/
theorem recordReads_keeps_unwrittenRead {s : State} {r : RegIdx} (h : s.unwrittenRead r = true) (rs : List RegIdx) :
    (s.recordReads rs).unwrittenRead r = true := by
  rw [recordReads_unwrittenRead, h, Bool.true_or]

/-- Settles O28: a ReadVec and a command extend the record, and no other step touches it, a `Reset` neither. -/
theorem unwrittenReadNeverCleared : Obligations.UnwrittenReadNeverCleared := by
  intro s t r hstep h
  rcases step_cases hstep with ⟨_, rfl⟩ | ⟨_, _, rfl⟩ | ⟨_, _, _, _, rfl⟩ | ⟨rest, i, _, rfl⟩ | ⟨rest, _, i, _, _, rfl⟩ |
    ⟨_, _, _, _, rfl⟩ | ⟨_, _, rfl⟩ | ⟨_, _, rfl⟩
  · exact h
  · exact h
  · exact h
  · exact recordReads_keeps_unwrittenRead (s := s.taking rest) h [i]
  · exact recordReads_keeps_unwrittenRead (s := s.taking rest) h (sources i)
  · exact h
  · exact h
  · exact h

/-- Settles O35: the record by `exec_unwrittenRead`; with all sources written no read is recorded. -/
theorem unwrittenSourcesRecorded : Obligations.UnwrittenSourcesRecorded := by
  intro i s t h
  refine ⟨exec_unwrittenRead h, fun hwritten => ?_⟩
  rw [exec_eq, recordReads_of_written s (sources i) hwritten] at h
  cases h
  exact ⟨rfl, rfl⟩

/-- Settles O36: SHUF's result at lanes 0 and 1, where the source is `va` and its contents are read. -/
theorem shufWithUnwrittenSource : Obligations.ShufWithUnwrittenSource := by
  intro vd va vb imm8 s hva hvb
  obtain ⟨t, ht, ⟨_, _, hstatus, _, hrecord⟩, hlane⟩ := shufResult vd va vb imm8 s
  have hlaneVa {i : Nat} (hi : i < 2) : lane 32 (t.cell vd) i = lane 32 (s.cell va) (laneSel imm8 i) := by
    rw [hlane i (by omega), if_pos hi, readReg_of_written hva, laneSel_eq_shift]
  have hvbRecorded : t.unwrittenRead vb = true := by
    rw [hrecord vb, hvb]
    simp
  exact ⟨t, ht, hlaneVa (by decide), hlaneVa (by decide), hvbRecorded, hstatus⟩

end Sys2Proof.Machine

/-! SUPPORT. Reset and hazards (70_reset_and_hazards.md): every pending transaction completes, one a step, and no step changes
the implementation parameters. -/

namespace Sys2Proof.Machine

/-- One transaction (70 R196): the step performs it, and it completes with the others still pending. -/
theorem step_performs_next {s : State} {tr : Transaction} {rest : List Transaction} (hp : s.pending = tr :: rest) :
    ∃ t, step s = perform tr (s.taking rest) ∧ perform tr (s.taking rest) = .next t ∧ t.pending = rest := by
  obtain ⟨t, ht, hrest⟩ := perform_completes tr (s.taking rest)
  exact ⟨t, step_of_pending hp, ht, hrest⟩

/-- As many steps as transactions are pending leave none: each step takes one. -/
theorem run_drains_pending {s : State} {ts : List Transaction} (hp : s.pending = ts) :
    ∃ t, core.run ts.length s = .next t ∧ t.pending = [] := by
  induction ts generalizing s with
  | nil => exact ⟨s, rfl, hp⟩
  | cons tr rest ih =>
    obtain ⟨u, hstep, hu, hrest⟩ := step_performs_next hp
    obtain ⟨t, hrun, ht⟩ := ih hrest
    exact ⟨t, (run_succ (hstep.trans hu) _).trans hrun, ht⟩

/-- Settles O14. -/
theorem pendingTransactionsComplete : Obligations.PendingTransactionsComplete :=
  ⟨fun _ _ _ hp => step_performs_next hp, fun _ => run_drains_pending rfl⟩

/-- Settles O27: none of the cases of a step, a `Reset` neither, touches the parameters (`step_config`). -/
theorem parametersNeverChange : Obligations.ParametersNeverChange :=
  fun _ _ h => step_config h

end Sys2Proof.Machine
